-- ==== Sys2Proof/Word.lean ====
section
/-! DEFINITION. The widths the spec gives the block's values. -/

namespace Sys2Proof

/-- A command word on port CMD (30_encoding.md R80, R81). -/
abbrev Word := BitVec 64

/-- The branch address operand, "unsigned 32-bit" (10_state.md R35). -/
abbrev Pc := BitVec 32

/-- A 2-bit saturating counter, an entry of PHT, LPT or CH (41_counter.md R114). -/
abbrev Counter := BitVec 2

/-- The container of GHR and of an LHT entry. The registers are G and L bits wide, at most 32; the
bits above are zero in every reachable state (10_state.md R25, R27, R39; log 9). -/
abbrev Hist := BitVec 32

/-- The container of H, NW bits wide, at most 255 (10_state.md R32; log 9). -/
abbrev FeatureHist := BitVec 255

/-- A weight or a bias, a signed 8-bit two's-complement integer (10_state.md R30, R31). -/
abbrev Weight := BitVec 8

/-- CAUSE and RSP.STATUS, 4 bits (10_state.md R22, 30_encoding.md R80). -/
abbrev Status := BitVec 4

end Sys2Proof
end

