-- ==== Sys2Proof/Syntax.lean ====
section
/-! DEFINITION. The strategies and the fifteen operations of spec/opcode_table.json, one constructor
each. -/

namespace Sys2Proof

/-- The five strategies (30_encoding.md R85); the value of the STRATEGY register (10_state.md R23). -/
inductive Strategy where
  | static | gshare | localHist | tournament | custom
  deriving DecidableEq, Repr

/-- The tag of a strategy, the STRAT field of a CONFIGURE (30_encoding.md R85). -/
def Strategy.tag : Strategy → BitVec 4
  | .static => 0
  | .gshare => 1
  | .localHist => 2
  | .tournament => 3
  | .custom => 4

/-- The 3-bit value of the STRATEGY register (10_state.md R23). -/
def Strategy.code (m : Strategy) : BitVec 3 := m.tag.setWidth 3

/-- The size fields of a CONFIGURE, format C without OP and STRAT (30_encoding.md R83). All six are
latched whichever strategy is chosen (46_facade.md R204, R212). -/
structure SizeFields where
  g : BitVec 6
  l : BitVec 6
  p : BitVec 6
  np : BitVec 14
  nw : BitVec 8
  th : BitVec 16
  deriving DecidableEq, Repr

/-- The operations of 30_encoding.md R84. An outcome is true for TAKEN (00_scope.md R10). -/
inductive Instr where
  | configureStatic (f : SizeFields)
  | configureGshare (f : SizeFields)
  | configureLocal (f : SizeFields)
  | configureTournament (f : SizeFields)
  | configureCustom (f : SizeFields)
  | predictStatic (pc : Pc)
  | predictGshare (pc : Pc)
  | predictLocal (pc : Pc)
  | predictTournament (pc : Pc)
  | predictCustom (pc : Pc)
  | trainStatic (pc : Pc) (o : Bool)
  | trainGshare (pc : Pc) (o : Bool)
  | trainLocal (pc : Pc) (o : Bool)
  | trainTournament (pc : Pc) (o : Bool)
  | trainCustom (pc : Pc) (o : Bool)
  deriving DecidableEq, Repr

/-- The mode column of the opcode table: the STRATEGY value that selects a PREDICT or TRAIN variant;
none for a CONFIGURE, which any STRATEGY decodes alike (30_encoding.md R84, R88). -/
def Instr.mode : Instr → Option Strategy
  | .configureStatic _ | .configureGshare _ | .configureLocal _
  | .configureTournament _ | .configureCustom _ => none
  | .predictStatic _ | .trainStatic _ _ => some .static
  | .predictGshare _ | .trainGshare _ _ => some .gshare
  | .predictLocal _ | .trainLocal _ _ => some .localHist
  | .predictTournament _ | .trainTournament _ _ => some .tournament
  | .predictCustom _ | .trainCustom _ _ => some .custom

end Sys2Proof
end

