-- ==== Sys2Proof/Config.lean ====
section
/-! DEFINITION. What an implementation of the block fixes: the build parameters of 00_scope.md R7. A
state carries them (log 2), so every statement is about every value of them. -/

namespace Sys2Proof

/-- The build parameters of 00_scope.md R7 that may differ between implementations. CTR_INIT has the
one legal value 1 and is `Config.ctrInit`. -/
structure BuildParams where
  /-- MAX_BITS, the largest table index width. -/
  maxBits : Nat
  /-- MAX_NP, the largest perceptron count. -/
  maxNP : Nat
  /-- MAX_NW, the largest weight count. -/
  maxNW : Nat
  /-- CHOOSER_INIT, the value of every CH entry after CONFIGURE. -/
  chooserInit : Counter
  /-- STATIC_DIR, what the static strategy predicts; true is TAKEN. -/
  staticDir : Bool
  deriving DecidableEq, Repr

/-- The legal values of the build parameters, the table of 00_scope.md R7. -/
abbrev BuildParams.Legal (b : BuildParams) : Prop :=
  1 ≤ b.maxBits ∧ b.maxBits ≤ 32 ∧
  (∃ k, k ≤ 13 ∧ b.maxNP = 2 ^ k) ∧
  1 ≤ b.maxNW ∧ b.maxNW ≤ 255

/-- The defaults of 00_scope.md R7. STATIC_DIR's default is general knowledge
(93_implementation_defined.md K9) and CHOOSER_INIT's is decision D10; a statement that needs them
says so (log 2). -/
def Config.defaultBuild : BuildParams :=
  { maxBits := 32, maxNP := 8192, maxNW := 255, chooserInit := 1, staticDir := true }

/-- CTR_INIT: every PHT and LPT counter after CONFIGURE, WeaklyNotTaken (10_state.md R40). -/
def Config.ctrInit : Counter := 1

/-- The STRATEGY register after power-on, which the spec leaves unspecified. DESIGN CHOICE, log 3. -/
def Config.resetStrategy : Strategy := .static

end Sys2Proof
end

