-- ==== Sys2Proof/WellFormed.lean ====
section
/-! DEFINITION. Which operations a block can be given. Every operand has the width of its field by its
type, so the one check left is the mode: a PREDICT or TRAIN variant exists only under the STRATEGY
that selects it (30_encoding.md R88). -/

namespace Sys2Proof

/-- `i` is an operation some command word stands for when the STRATEGY register holds `m`. -/
def Instr.wellFormed (m : Strategy) (i : Instr) : Bool :=
  match i.mode with
  | none => true
  | some m' => m' == m

end Sys2Proof
end

