-- ==== Sys2Proof/Decode.lean ====
section
/-! DEFINITION. The decoder, total on all 64-bit words (30_encoding.md R89), and after it the
encoder. -/

namespace Sys2Proof

/-- Why a word stands for no operation of the opcode table. -/
inductive Reject where
  /-- OP is 0x0 or 0x4 to 0xF: an illegal command (30_encoding.md R86). -/
  | reservedOpcode
  /-- A reserved bit of format B is set: an illegal command (30_encoding.md R86). -/
  | reservedBits
  /-- A CONFIGURE whose STRAT is 5 to 15: a legal encoding of a bad operand (30_encoding.md R86). -/
  | badStrategyTag (tag : BitVec 4)
  deriving DecidableEq, Repr

/-- A command with its operands, before STRATEGY or STRAT selects the variant (30_encoding.md R89). -/
inductive Command where
  | configure (strat : BitVec 4) (f : SizeFields)
  | predict (pc : Pc)
  | train (pc : Pc) (o : Bool)
  deriving DecidableEq, Repr

/-! ## Fields (30_encoding.md R82, R83) -/

/-- OP, bits 63:60. -/
def opField (w : Word) : BitVec 4 := w.extractLsb' 60 4

/-- STRAT, bits 59:56. -/
def stratField (w : Word) : BitVec 4 := w.extractLsb' 56 4

/-- The six size fields of format C. -/
def sizeFields (w : Word) : SizeFields :=
  { g := w.extractLsb' 50 6
    l := w.extractLsb' 44 6
    p := w.extractLsb' 38 6
    np := w.extractLsb' 24 14
    nw := w.extractLsb' 16 8
    th := w.extractLsb' 0 16 }

/-- PC, bits 31:0. -/
def pcField (w : Word) : Pc := w.extractLsb' 0 32

/-- O, bit 32. -/
def outcomeField (w : Word) : Bool := w.getLsbD 32

/-- The reserved bits of a PREDICT, 59:32. -/
def predictReserved (w : Word) : BitVec 28 := w.extractLsb' 32 28

/-- The reserved bits of a TRAIN, 59:33. -/
def trainReserved (w : Word) : BitVec 27 := w.extractLsb' 33 27

/-- The strategy a tag stands for; none for the tags 5 to 15 (30_encoding.md R85). -/
def Strategy.ofTag (t : BitVec 4) : Option Strategy :=
  if t = 0 then some .static
  else if t = 1 then some .gshare
  else if t = 2 then some .localHist
  else if t = 3 then some .tournament
  else if t = 4 then some .custom
  else none

/-- The decoding procedure of 30_encoding.md R89; ILLEGAL is split by its reason. -/
def decodeCommand (w : Word) : Except Reject Command :=
  if opField w = 1 then .ok (.configure (stratField w) (sizeFields w))
  else if opField w = 2 then
    if predictReserved w = 0 then .ok (.predict (pcField w)) else .error .reservedBits
  else if opField w = 3 then
    if trainReserved w = 0 then .ok (.train (pcField w) (outcomeField w)) else .error .reservedBits
  else .error .reservedOpcode

/-- The CONFIGURE variant of a strategy (30_encoding.md R84). -/
def configureVariant (f : SizeFields) : Strategy → Instr
  | .static => .configureStatic f
  | .gshare => .configureGshare f
  | .localHist => .configureLocal f
  | .tournament => .configureTournament f
  | .custom => .configureCustom f

/-- The dispatch of PREDICT (46_facade.md R200). -/
def predictVariant (pc : Pc) : Strategy → Instr
  | .static => .predictStatic pc
  | .gshare => .predictGshare pc
  | .localHist => .predictLocal pc
  | .tournament => .predictTournament pc
  | .custom => .predictCustom pc

/-- The dispatch of TRAIN (46_facade.md R201). -/
def trainVariant (pc : Pc) (o : Bool) : Strategy → Instr
  | .static => .trainStatic pc o
  | .gshare => .trainGshare pc o
  | .localHist => .trainLocal pc o
  | .tournament => .trainTournament pc o
  | .custom => .trainCustom pc o

/-- The variant of a command: by STRAT for CONFIGURE, by the STRATEGY register `m` for PREDICT and
TRAIN (30_encoding.md R84, R88). -/
def selectVariant (m : Strategy) : Command → Except Reject Instr
  | .configure t f =>
    match Strategy.ofTag t with
    | some k => .ok (configureVariant f k)
    | none => .error (.badStrategyTag t)
  | .predict pc => .ok (predictVariant pc m)
  | .train pc o => .ok (trainVariant pc o m)

/-- The operation a word stands for when the STRATEGY register holds `m` (30_encoding.md R88, R89). -/
def decode (m : Strategy) (w : Word) : Except Reject Instr :=
  match decodeCommand w with
  | .error r => .error r
  | .ok c => selectVariant m c

/-- The 64-bit word whose low `nbits` bits are those of `w` and whose other bits are 0. -/
def tableWord (nbits w : Nat) : Word := BitVec.ofNat 64 (w % 2 ^ nbits)

/-- The decoder on an opcode-table word. PREDICT and TRAIN have one encoding for five rows, told apart
by STRATEGY (30_encoding.md R88); a bare word is read under STRATEGY as it stands after power-on
(log 7). -/
def decodeTableWord (nbits w : Nat) : Option Instr :=
  match decode Config.resetStrategy (tableWord nbits w) with
  | .ok i => some i
  | .error _ => none

/-! ## The encoder -/

/-- Format C (30_encoding.md R83). -/
def formatC (strat : BitVec 4) (f : SizeFields) : Word :=
  0x1#4 ++ strat ++ f.g ++ f.l ++ f.p ++ f.np ++ f.nw ++ f.th

/-- Format B (30_encoding.md R82). -/
def formatB (op : BitVec 4) (o : Bool) (pc : Pc) : Word :=
  op ++ 0#27 ++ BitVec.ofBool o ++ pc

/-- The word of a command (30_encoding.md R82, R83). -/
def encodeCommand : Command → Word
  | .configure t f => formatC t f
  | .predict pc => formatB 0x2 false pc
  | .train pc o => formatB 0x3 o pc

/-- The word of an operation (30_encoding.md R84). -/
def encode : Instr → Word
  | .configureStatic f => formatC 0 f
  | .configureGshare f => formatC 1 f
  | .configureLocal f => formatC 2 f
  | .configureTournament f => formatC 3 f
  | .configureCustom f => formatC 4 f
  | .predictStatic pc | .predictGshare pc | .predictLocal pc
  | .predictTournament pc | .predictCustom pc => formatB 0x2 false pc
  | .trainStatic pc o | .trainGshare pc o | .trainLocal pc o
  | .trainTournament pc o | .trainCustom pc o => formatB 0x3 o pc

end Sys2Proof
end

