-- ==== Sys2Proof/Machine/Counter.lean ====
section
/-! DEFINITION. The pseudocode primitives of 00_scope.md R11: the saturating counter, the history shift,
and the signed arithmetic of the perceptron. -/

namespace Sys2Proof.Machine

/-- `inc2` (41_counter.md R110). -/
def inc2 (c : Counter) : Counter := if c = 3 then 3 else c + 1

/-- `dec2` (41_counter.md R111). -/
def dec2 (c : Counter) : Counter := if c = 0 then 0 else c - 1

/-- `dir2`: true is TAKEN, or "prefer Global" for a chooser entry (41_counter.md R112,
44_tournament.md R161). -/
def dir2 (c : Counter) : Bool := decide (1 < c)

/-- `upd2` (41_counter.md R113). -/
def upd2 (c : Counter) (o : Bool) : Counter := if o then inc2 c else dec2 c

/-- `mask(n)`, n one-bits, in a container of `w` bits (00_scope.md R11). -/
def mask (w n : Nat) : BitVec w := BitVec.ofNat w (2 ^ n - 1)

/-- `shin`: shift outcome `o` into an `n`-bit history (41_counter.md R115). The bit that the shift
pushes out of the container is bit `w`, which the mask would clear as `n` is at most `w`. -/
def shin {w : Nat} (h : BitVec w) (o : Bool) (n : Nat) : BitVec w :=
  ((h <<< 1) ||| (BitVec.ofBool o).setWidth w) &&& mask w n

/-- `sgn` (00_scope.md R11): +1 for a set bit, -1 for a clear one. -/
def sgn (bit : Bool) : Int := if bit then 1 else -1

/-- `clamp8` (00_scope.md R11), stored in 8 bits. -/
def clamp8 (v : Int) : Weight :=
  BitVec.ofInt 8 (if v < -128 then -128 else if 127 < v then 127 else v)

end Sys2Proof.Machine
end

