-- ==== Sys2Proof/Machine/State.lean ====
section
/-! DEFINITION. The block's state (10_state.md R20), the reasons a step can stop, and the state after
power-on. -/

namespace Sys2Proof.Machine

/-- A table's contents: (index, entry) pairs with rising indices, listing only the entries that differ
from the table's reset value (10_state.md R40). -/
abbrev Table (α : Type) := List (Nat × α)

/-- The state of one block. Field names are the spec's, in lower case. -/
structure State where
  /-- CONFIGURED (10_state.md R21). -/
  configured : Bool
  /-- FAULT (10_state.md R22). -/
  fault : Bool
  /-- CAUSE (10_state.md R22). -/
  cause : Status
  /-- STRATEGY (10_state.md R23). -/
  strategy : Strategy
  /-- G, ghistoryBits (10_state.md R24). -/
  g : BitVec 6
  /-- L, lhistoryBits (10_state.md R24). -/
  l : BitVec 6
  /-- P, pcIndexBits (10_state.md R24). -/
  p : BitVec 6
  /-- NP, numPerceptrons (10_state.md R24). -/
  np : BitVec 14
  /-- NW, numWeights (10_state.md R24). -/
  nw : BitVec 8
  /-- TH, threshold (10_state.md R24). -/
  th : BitVec 16
  /-- GHR, the Global History Register (10_state.md R25). -/
  ghr : Hist
  /-- H, the perceptron history register (10_state.md R32). -/
  h : FeatureHist
  /-- SC.V (10_state.md R33). -/
  scV : Bool
  /-- SC.PC (10_state.md R33). -/
  scPc : Pc
  /-- SC.IDX (10_state.md R33). -/
  scIdx : BitVec 14
  /-- SC.Y, the exact signed sum (10_state.md R33; log 9). -/
  scY : Int
  /-- PHT, the Pattern History Table (10_state.md R26). -/
  pht : List (Nat × Counter)
  /-- LHT, the Local History Table (10_state.md R27). -/
  lht : List (Nat × Hist)
  /-- LPT, the Local Pattern Table (10_state.md R28). -/
  lpt : List (Nat × Counter)
  /-- CH, the Chooser Table (10_state.md R29). -/
  ch : List (Nat × Counter)
  /-- W, the weight array; element `W[p][i]` has index `weightIndex p i` (10_state.md R30; log 14). -/
  w : List (Nat × Weight)
  /-- B, the bias array (10_state.md R31). -/
  b : List (Nat × Weight)
  /-- RSP.TAKEN as last driven (30_encoding.md R80, R90; log 6). -/
  rspTaken : Bool
  /-- RSP.STATUS as last driven (30_encoding.md R80, R90; log 6). -/
  rspStatus : Status
  /-- The model's own field: the words the driver will still present on CMD, the next one first
  (30_encoding.md R80; log 1). -/
  cmds : List Word
  /-- The model's own field: the build parameters (00_scope.md R7), which no step writes (log 2). -/
  build : BuildParams
  deriving DecidableEq, Repr

/-- The six causes of 60_exceptions.md R231. -/
inductive Cause where
  | cfgBadStrategy | cfgBadSize | notConfigured | reconfigure | trainUnpaired | illegalCommand
  deriving DecidableEq, Repr

/-- The stops of the model that are no fault of the spec: every fault of 60_exceptions.md R231 is a next
state with FAULT and CAUSE written (R240; log 10). -/
inductive Fault where
  /-- Raised by the ten PREDICT and TRAIN meanings when they are run in a running block whose STRATEGY
  does not select them. No step raises it, because the decoder reads STRATEGY (30_encoding.md R88).
  Safe: the model stops on a pair of operation and state that no command word makes (log 7). -/
  | wrongStrategy
  deriving DecidableEq, Repr

/-- Why no meaning was run. -/
inductive Refusal where
  /-- Raised by an arm of exec whose operation has no meaning yet. No arm does. Safe. -/
  | notModelled (mnemonic : String)
  /-- Raised by step when the driver presents no command word: only a command word causes a transition
  (30_encoding.md R80), and nothing happens between commands (60_exceptions.md R238). Safe (log 1). -/
  | noCommand
  deriving DecidableEq, Repr

/-- The outcome of one step or one meaning. -/
abbrev Result := Host.Outcome State Fault Refusal

/-- The block right after power-on (10_state.md R40, 70_reset_and_hazards.md R260). CONFIGURED, FAULT and
CAUSE are the spec's; every other value is a DESIGN CHOICE of logs 1 to 6. -/
def State.reset : State :=
  { configured := false
    fault := false
    cause := 0
    strategy := Config.resetStrategy
    g := 0
    l := 0
    p := 0
    np := 0
    nw := 0
    th := 0
    ghr := 0
    h := 0
    scV := false
    scPc := 0
    scIdx := 0
    scY := 0
    pht := []
    lht := []
    lpt := []
    ch := []
    w := []
    b := []
    rspTaken := false
    rspStatus := 0
    cmds := []
    build := Config.defaultBuild }

end Sys2Proof.Machine
end

