-- ==== Sys2Proof/Machine/Flags.lean ====
section
/-! DEFINITION. The one-bit results (10_state.md R36), the conditions that steer training, and the
response (30_encoding.md R90). -/

namespace Sys2Proof.Machine

/-- The code of a cause, written to CAUSE and returned in RSP.STATUS (60_exceptions.md R231). -/
def Cause.code : Cause → Status
  | .cfgBadStrategy => 1
  | .cfgBadSize => 2
  | .notConfigured => 3
  | .reconfigure => 4
  | .trainUnpaired => 5
  | .illegalCommand => 6

/-- The perceptron's prediction: TAKEN iff `y >= 0` (45_perceptron.md R179). -/
def perceptronTaken (y : Int) : Bool := decide (0 ≤ y)

/-- `upd`, the training condition (45_perceptron.md R180). -/
def trainingNeeded (y : Int) (o : Bool) (th : BitVec 16) : Bool :=
  perceptronTaken y != o || decide (y.natAbs < th.toNat)

/-- Drive the response port (30_encoding.md R90). -/
def respond (status : Status) (taken : Bool) (s : State) : State :=
  { s with rspStatus := status, rspTaken := taken }

/-- A command other than PREDICT completes: STATUS 0 and no prediction (30_encoding.md R90). -/
def complete (s : State) : State := respond 0 false s

/-- `return b`: a PREDICT completes with its prediction (00_scope.md R11, 30_encoding.md R90). -/
def completePredict (taken : Bool) (s : State) : State := respond 0 taken s

end Sys2Proof.Machine
end

