-- ==== Sys2Proof/Machine/Ops.lean ====
section
/-! DEFINITION. The shared operations: table access (20_memory.md R63), fault entry
(60_exceptions.md R240), the checks that come before every command (R239), power-on
(70_reset_and_hazards.md R260), and taking the next command word from port CMD
(30_encoding.md R80). -/

namespace Sys2Proof.Machine

/-! ## Tables -/

/-- `T[i]`, where an unlisted entry reads as the table's reset value `d` (20_memory.md R63). -/
def Table.read {α : Type} (d : α) : Table α → Nat → α
  | [], _ => d
  | (k, v) :: t, i => if i = k then v else Table.read d t i

/-- `T[i] <- v` (20_memory.md R63), keeping the canonical form: writing the reset value removes the
entry. -/
def Table.write {α : Type} [DecidableEq α] (d : α) : Table α → Nat → α → Table α
  | [], i, v => if v = d then [] else [(i, v)]
  | (k, u) :: t, i, v =>
    if i < k then (if v = d then (k, u) :: t else (i, v) :: (k, u) :: t)
    else if i = k then (if v = d then t else (k, v) :: t)
    else (k, u) :: Table.write d t i v

/-- The canonical form of a table whose reset value is `d`. -/
def Table.wf {α : Type} [DecidableEq α] (d : α) : Table α → Bool
  | [] => true
  | (k, v) :: t => decide (v ≠ d) && t.all (fun e => decide (k < e.1)) && Table.wf d t

/-- Every listed index is below `n`, the number of entries of the table. -/
def Table.below {α : Type} (n : Nat) (t : Table α) : Bool := t.all (fun e => decide (e.1 < n))

/-- All six tables are in canonical form. -/
def Memory.wf (s : State) : Bool :=
  Table.wf Config.ctrInit s.pht && Table.wf 0 s.lht && Table.wf Config.ctrInit s.lpt &&
  Table.wf s.build.chooserInit s.ch && Table.wf 0 s.w && Table.wf 0 s.b

/-- `PHT[i]` (10_state.md R26). -/
def readPht (s : State) (i : Nat) : Counter := Table.read Config.ctrInit s.pht i

/-- `LHT[i]` (10_state.md R27). -/
def readLht (s : State) (i : Nat) : Hist := Table.read 0 s.lht i

/-- `LPT[i]` (10_state.md R28). -/
def readLpt (s : State) (i : Nat) : Counter := Table.read Config.ctrInit s.lpt i

/-- `CH[i]` (10_state.md R29). -/
def readCh (s : State) (i : Nat) : Counter := Table.read s.build.chooserInit s.ch i

/-- The index of `W[p][i]` in the list that holds W. A row has at most 255 elements, so no two elements
share an index (10_state.md R30; log 14). -/
def weightIndex (p i : Nat) : Nat := 256 * p + i

/-- `W[p][i]` (10_state.md R30). -/
def readW (s : State) (p i : Nat) : Weight := Table.read 0 s.w (weightIndex p i)

/-- `B[p]` (10_state.md R31). -/
def readB (s : State) (p : Nat) : Weight := Table.read 0 s.b p

/-- `PHT[i] <- v`. -/
def writePht (i : Nat) (v : Counter) (s : State) : State :=
  { s with pht := Table.write Config.ctrInit s.pht i v }

/-- `LHT[i] <- v`. -/
def writeLht (i : Nat) (v : Hist) (s : State) : State :=
  { s with lht := Table.write 0 s.lht i v }

/-- `LPT[i] <- v`. -/
def writeLpt (i : Nat) (v : Counter) (s : State) : State :=
  { s with lpt := Table.write Config.ctrInit s.lpt i v }

/-- `CH[i] <- v`. -/
def writeCh (i : Nat) (v : Counter) (s : State) : State :=
  { s with ch := Table.write s.build.chooserInit s.ch i v }

/-- `B[p] <- v`. -/
def writeB (p : Nat) (v : Weight) (s : State) : State :=
  { s with b := Table.write 0 s.b p v }

/-! ## Faults and power-on -/

/-- `raise`: fault entry, which writes FAULT, CAUSE and the response and nothing else
(60_exceptions.md R240). There is no return from it (R241). -/
def raise (c : Cause) (s : State) : State :=
  respond c.code false { s with fault := true, cause := c.code }

/-- What a faulted block answers to every command word (60_exceptions.md R242). -/
def answerFaulted (s : State) : State := respond s.cause false s

/-- Power-on, an event from outside that begins a lifetime (70_reset_and_hazards.md R260). What it leaves
unspecified keeps its contents here (log 12). -/
def powerOn (s : State) : State :=
  respond 0 false { s with configured := false, fault := false, cause := 0 }

/-! ## The checks before a command (60_exceptions.md R239, steps 1 and 3) -/

/-- Run `k` on a PREDICT or TRAIN variant of strategy `m`: a faulted block answers its cause, an
unconfigured one raises NOT_CONFIGURED. The last check holds in every step (log 7). -/
def underStrategy (m : Strategy) (s : State) (k : State) : Result :=
  if s.fault then .next (answerFaulted s)
  else if !s.configured then .next (raise .notConfigured s)
  else if s.strategy = m then .next k
  else .fault .wrongStrategy

/-- The state after a CONFIGURE whose operands, once the lifecycle checks pass, give `k`. -/
def underConfigure (s : State) (k : State) : State :=
  if s.fault then answerFaulted s
  else if s.configured then raise .reconfigure s
  else k

/-! ## The command port -/

/-- Take the word presented on CMD, leaving the driver's later words (30_encoding.md R80). -/
def takeCommand (s : State) : Option (Word × State) :=
  match s.cmds with
  | [] => none
  | w :: rest => some (w, { s with cmds := rest })

/-- Present one command word next, before the words the driver will present later. -/
def presentCommand (w : Word) (s : State) : State := { s with cmds := w :: s.cmds }

end Sys2Proof.Machine
end

