-- ==== Sys2Proof/Machine/Operands.lean ====
section
/-! DEFINITION. The operand forms: the index derivers of the tables (20_memory.md R60) and the size
check of CONFIGURE (46_facade.md R210). -/

namespace Sys2Proof.Machine

/-! ## Index derivers -/

/-- `gidx(pc, GHR) = (pc ^ GHR) & mask(G)` (42_gshare.md R130). -/
def gidx (pc : Pc) (s : State) : Nat := ((pc ^^^ s.ghr) &&& mask 32 s.g.toNat).toNat

/-- `aidx(pc) = pc & mask(P)` (43_local.md R145). -/
def aidx (pc : Pc) (s : State) : Nat := (pc &&& mask 32 s.p.toNat).toNat

/-- `hidx(pc) = LHT[aidx(pc)] & mask(L)` (43_local.md R146). -/
def hidx (pc : Pc) (s : State) : Nat := (readLht s (aidx pc s) &&& mask 32 s.l.toNat).toNat

/-- `cidx(pc) = pc & mask(P)` (44_tournament.md R161). -/
def cidx (pc : Pc) (s : State) : Nat := (pc &&& mask 32 s.p.toNat).toNat

/-- `pidx(pc) = pc & (NP - 1)` (45_perceptron.md R176). The index is below NP and so has at most the
width of NP; the low 14 bits of `pc` are all that the AND can keep. -/
def pidx (pc : Pc) (s : State) : BitVec 14 := pc.setWidth 14 &&& (s.np - 1)

/-! ## The size check of CONFIGURE -/

/-- `1 <= x <= MAX_BITS` (46_facade.md R210). -/
def widthLegal (b : BuildParams) (x : BitVec 6) : Bool :=
  decide (1 ≤ x.toNat) && decide (x.toNat ≤ b.maxBits)

/-- `n` is a power of two; a 14-bit field holds no power above the 13th. -/
def isPowerOfTwo (n : BitVec 14) : Bool := (List.range 14).any (fun k => n.toNat == 2 ^ k)

/-- `SizesLegal` (46_facade.md R210). A field the strategy does not use is not checked (R212). -/
def sizesLegal (b : BuildParams) (m : Strategy) (f : SizeFields) : Bool :=
  match m with
  | .static => true
  | .gshare => widthLegal b f.g
  | .localHist => widthLegal b f.l && widthLegal b f.p
  | .tournament => widthLegal b f.g && widthLegal b f.l && widthLegal b f.p
  | .custom =>
    decide (1 ≤ f.np.toNat) && decide (f.np.toNat ≤ b.maxNP) && isPowerOfTwo f.np &&
    decide (1 ≤ f.nw.toNat) && decide (f.nw.toNat ≤ b.maxNW)

end Sys2Proof.Machine
end

