-- ==== Sys2Proof/Machine/Facade.lean ====
section
/-! DEFINITION. CONFIGURE in its five variants (46_facade.md section 3), and what a word that stands for
no operation does (60_exceptions.md R239). -/

namespace Sys2Proof.Machine

/-- STRATEGY, the parameter registers and CONFIGURED, as a CONFIGURE without fault writes them
(46_facade.md R204). Unused parameters are latched too (R212). -/
def latchConfiguration (m : Strategy) (f : SizeFields) (s : State) : State :=
  { s with
    configured := true, strategy := m
    g := f.g, l := f.l, p := f.p, np := f.np, nw := f.nw, th := f.th }

/-- The Global instance at its reset values: GHR 0 and every PHT entry CTR_INIT (10_state.md R40). -/
def initGlobal (s : State) : State := { s with ghr := 0, pht := [] }

/-- The Local instance at its reset values: LHT 0 and every LPT entry CTR_INIT (10_state.md R40). -/
def initLocal (s : State) : State := { s with lht := [], lpt := [] }

/-- The chooser at its reset value: every entry CHOOSER_INIT (10_state.md R40). -/
def initChooser (s : State) : State := { s with ch := [] }

/-- The perceptron bank at its reset values: W, B, H zero and SC.V 0. SC.PC, SC.IDX and SC.Y are
unspecified and keep their contents (10_state.md R40; log 11). -/
def initPerceptron (s : State) : State := { s with w := [], b := [], h := 0, scV := false }

/-- CONFIGURE, the common part (46_facade.md R204, 60_exceptions.md R239): `init` gives the data state
that exists under `m` its reset values. -/
def configureAs (m : Strategy) (f : SizeFields) (init : State → State) (s : State) : Result :=
  .next (underConfigure s
    (if sizesLegal s.build m f then complete (latchConfiguration m f (init s))
     else raise .cfgBadSize s))

/-- CONFIGURE.STATIC (46_facade.md R205). -/
def execConfigureStatic (f : SizeFields) (s : State) : Result := configureAs .static f id s

/-- CONFIGURE.GSHARE (46_facade.md R206). -/
def execConfigureGshare (f : SizeFields) (s : State) : Result := configureAs .gshare f initGlobal s

/-- CONFIGURE.LOCAL (46_facade.md R207). -/
def execConfigureLocal (f : SizeFields) (s : State) : Result := configureAs .localHist f initLocal s

/-- CONFIGURE.TOURNAMENT (46_facade.md R208). -/
def execConfigureTournament (f : SizeFields) (s : State) : Result :=
  configureAs .tournament f (fun s => initChooser (initLocal (initGlobal s))) s

/-- CONFIGURE.CUSTOM (46_facade.md R209). -/
def execConfigureCustom (f : SizeFields) (s : State) : Result :=
  configureAs .custom f initPerceptron s

/-- A word the decoder rejects, in the order of 60_exceptions.md R239: an illegal word raises
ILLEGAL_COMMAND (R237); a CONFIGURE with a bad tag is subject to the lifecycle check first and then
raises CFG_BAD_STRATEGY (R232, 46_facade.md R211). -/
def rejectCommand (r : Reject) (s : State) : State :=
  match r with
  | .reservedOpcode | .reservedBits =>
    if s.fault then answerFaulted s else raise .illegalCommand s
  | .badStrategyTag _ => underConfigure s (raise .cfgBadStrategy s)

end Sys2Proof.Machine
end

