-- ==== Sys2Proof/Machine/Perceptron.lean ====
section
/-! DEFINITION. The perceptron predictor (45_perceptron.md). -/

namespace Sys2Proof.Machine

/-- The sum over the features 0 to `n - 1` of row `p`: `+W[p][i]` where `H[i]` is set, `-W[p][i]` where it
is clear, in exact integers (45_perceptron.md R177, R178; 70_reset_and_hazards.md R268). -/
def featureSum (h : FeatureHist) (w : Table Weight) (p : Nat) : Nat → Int
  | 0 => 0
  | n + 1 =>
    featureSum h w p n +
      (if h.getLsbD n then (Table.read 0 w (weightIndex p n)).toInt
        else -(Table.read 0 w (weightIndex p n)).toInt)

/-- `ysum(p)` (45_perceptron.md R178). -/
def ysum (s : State) (p : Nat) : Int := (readB s p).toInt + featureSum s.h s.w p s.nw.toNat

/-- The new value of a weight whose history bit is `bit` (45_perceptron.md R181). -/
def trainedWeight (v : Weight) (bit o : Bool) : Weight := clamp8 (v.toInt + sgn bit * sgn o)

/-- The new value of a bias (45_perceptron.md R182). -/
def trainedBias (v : Weight) (o : Bool) : Weight := clamp8 (v.toInt + sgn o)

/-- The weights with the elements 0 to `n - 1` of row `p` trained, in that order (45_perceptron.md
R181, R184). -/
def trainRow (p : Nat) (h : FeatureHist) (o : Bool) : Nat → Table Weight → Table Weight
  | 0, t => t
  | n + 1, t =>
    let t' := trainRow p h o n t
    Table.write 0 t' (weightIndex p n)
      (trainedWeight (Table.read 0 t' (weightIndex p n)) (h.getLsbD n) o)

/-- `H <- shin(H, o, NW)` (45_perceptron.md R183). -/
def shiftH (o : Bool) (s : State) : State := { s with h := shin s.h o s.nw.toNat }

/-- The weight and bias update of row SC.IDX (45_perceptron.md R181, R182). -/
def trainWeights (o : Bool) (s : State) : State :=
  writeB s.scIdx.toNat (trainedBias (readB s s.scIdx.toNat) o)
    { s with w := trainRow s.scIdx.toNat s.h o s.nw.toNat s.w }

/-- The effect of a paired TRAIN: the update if the training condition holds, then the history shift,
then SC.V is cleared (45_perceptron.md R184). -/
def perceptronTrain (o : Bool) (s : State) : State :=
  let s' := if trainingNeeded s.scY o s.th then trainWeights o s else s
  { shiftH o s' with scV := false }

/-- The pairing check: SC holds an unconsumed PREDICT of the same pc (45_perceptron.md R185). -/
def paired (pc : Pc) (s : State) : Bool := s.scV && decide (s.scPc = pc)

/-- The scratch record a PREDICT leaves (45_perceptron.md R179). -/
def recordScratch (pc : Pc) (s : State) : State :=
  { s with scV := true, scPc := pc, scIdx := pidx pc s, scY := ysum s (pidx pc s).toNat }

/-- PREDICT.CUSTOM (45_perceptron.md R179). -/
def execPredictCustom (pc : Pc) (s : State) : Result :=
  underStrategy .custom s
    (completePredict (perceptronTaken (ysum s (pidx pc s).toNat)) (recordScratch pc s))

/-- TRAIN.CUSTOM: TRAIN_UNPAIRED before any write, else the training (45_perceptron.md R184). -/
def execTrainCustom (pc : Pc) (o : Bool) (s : State) : Result :=
  underStrategy .custom s
    (if paired pc s then complete (perceptronTrain o s) else raise .trainUnpaired s)

end Sys2Proof.Machine
end

