-- ==== Sys2Proof/Machine/Static.lean ====
section
/-! DEFINITION. The static strategy: PREDICT.STATIC and TRAIN.STATIC (46_facade.md section 2). -/

namespace Sys2Proof.Machine

/-- PREDICT.STATIC (46_facade.md R202). -/
def execPredictStatic (_pc : Pc) (s : State) : Result :=
  underStrategy .static s (completePredict s.build.staticDir s)

/-- TRAIN.STATIC: no effect but the response (46_facade.md R203). -/
def execTrainStatic (_pc : Pc) (_o : Bool) (s : State) : Result :=
  underStrategy .static s (complete s)

end Sys2Proof.Machine
end

