-- ==== Sys2Proof/Machine/Gshare.lean ====
section
/-! DEFINITION. The global-history predictor (42_gshare.md), which is also the Arbiter's Global instance
(10_state.md R38). -/

namespace Sys2Proof.Machine

/-- Global.predict: `dir2(PHT[gidx(pc, GHR)])` (42_gshare.md R131). -/
def globalPredict (pc : Pc) (s : State) : Bool := dir2 (readPht s (gidx pc s))

/-- `GHR <- shin(GHR, o, G)` (42_gshare.md R133). -/
def shiftGhr (o : Bool) (s : State) : State := { s with ghr := shin s.ghr o s.g.toNat }

/-- Global.train: the PHT entry first, indexed with the GHR of before, then GHR (42_gshare.md R132). -/
def globalTrain (pc : Pc) (o : Bool) (s : State) : State :=
  shiftGhr o (writePht (gidx pc s) (upd2 (readPht s (gidx pc s)) o) s)

/-- PREDICT.GSHARE (42_gshare.md R131). -/
def execPredictGshare (pc : Pc) (s : State) : Result :=
  underStrategy .gshare s (completePredict (globalPredict pc s) s)

/-- TRAIN.GSHARE (42_gshare.md R132). -/
def execTrainGshare (pc : Pc) (o : Bool) (s : State) : Result :=
  underStrategy .gshare s (complete (globalTrain pc o s))

end Sys2Proof.Machine
end

