-- ==== Sys2Proof/Machine/LocalHistory.lean ====
section
/-! DEFINITION. The local-history predictor (43_local.md), which is also the Arbiter's Local instance
(10_state.md R38). -/

namespace Sys2Proof.Machine

/-- Local.predict: `dir2(LPT[hidx(pc)])` (43_local.md R147). -/
def localPredict (pc : Pc) (s : State) : Bool := dir2 (readLpt s (hidx pc s))

/-- Local.train: the LPT entry of the history before the command, then the LHT entry (43_local.md R148,
R149). -/
def localTrain (pc : Pc) (o : Bool) (s : State) : State :=
  writeLht (aidx pc s) (shin (readLht s (aidx pc s)) o s.l.toNat)
    (writeLpt (hidx pc s) (upd2 (readLpt s (hidx pc s)) o) s)

/-- PREDICT.LOCAL (43_local.md R147). -/
def execPredictLocal (pc : Pc) (s : State) : Result :=
  underStrategy .localHist s (completePredict (localPredict pc s) s)

/-- TRAIN.LOCAL (43_local.md R148). -/
def execTrainLocal (pc : Pc) (o : Bool) (s : State) : Result :=
  underStrategy .localHist s (complete (localTrain pc o s))

end Sys2Proof.Machine
end

