-- ==== Sys2Proof/Machine/Tournament.lean ====
section
/-! DEFINITION. The Tournament Arbiter (44_tournament.md). -/

namespace Sys2Proof.Machine

/-- Arbiter.predict: Global's prediction if the chooser entry favours Global, else Local's
(44_tournament.md R162). -/
def arbiterPredict (pc : Pc) (s : State) : Bool :=
  if dir2 (readCh s (cidx pc s)) then globalPredict pc s else localPredict pc s

/-- The chooser update, from the two predictions of before the command (44_tournament.md R163, R164):
toward Global when Global alone is correct, toward Local when Local alone is, else no write (R165). -/
def chooserTrain (pc : Pc) (o : Bool) (s : State) : State :=
  let gc := globalPredict pc s == o
  let lc := localPredict pc s == o
  if gc && !lc then writeCh (cidx pc s) (inc2 (readCh s (cidx pc s))) s
  else if lc && !gc then writeCh (cidx pc s) (dec2 (readCh s (cidx pc s))) s
  else s

/-- Arbiter.train: the chooser, then Global.train, then Local.train (44_tournament.md R163, R166). GHR
is shifted once, by Global.train (R168). -/
def arbiterTrain (pc : Pc) (o : Bool) (s : State) : State :=
  localTrain pc o (globalTrain pc o (chooserTrain pc o s))

/-- PREDICT.TOURNAMENT (44_tournament.md R162). -/
def execPredictTournament (pc : Pc) (s : State) : Result :=
  underStrategy .tournament s (completePredict (arbiterPredict pc s) s)

/-- TRAIN.TOURNAMENT (44_tournament.md R163). -/
def execTrainTournament (pc : Pc) (o : Bool) (s : State) : Result :=
  underStrategy .tournament s (complete (arbiterTrain pc o s))

end Sys2Proof.Machine
end

