-- ==== Sys2Proof/Machine/Dispatch.lean ====
section
/-! DEFINITION. The meaning of every operation of spec/opcode_table.json, one arm each. -/

namespace Sys2Proof.Machine

/-- The effect of one decoded operation (30_encoding.md R84). -/
def exec (i : Instr) (s : State) : Host.Outcome State Fault Refusal :=
  match i with
  | .configureStatic f => Sys2Proof.Machine.execConfigureStatic f s
  | .configureGshare f => Sys2Proof.Machine.execConfigureGshare f s
  | .configureLocal f => Sys2Proof.Machine.execConfigureLocal f s
  | .configureTournament f => Sys2Proof.Machine.execConfigureTournament f s
  | .configureCustom f => Sys2Proof.Machine.execConfigureCustom f s
  | .predictStatic pc => Sys2Proof.Machine.execPredictStatic pc s
  | .predictGshare pc => Sys2Proof.Machine.execPredictGshare pc s
  | .predictLocal pc => Sys2Proof.Machine.execPredictLocal pc s
  | .predictTournament pc => Sys2Proof.Machine.execPredictTournament pc s
  | .predictCustom pc => Sys2Proof.Machine.execPredictCustom pc s
  | .trainStatic pc o => Sys2Proof.Machine.execTrainStatic pc o s
  | .trainGshare pc o => Sys2Proof.Machine.execTrainGshare pc o s
  | .trainLocal pc o => Sys2Proof.Machine.execTrainLocal pc o s
  | .trainTournament pc o => Sys2Proof.Machine.execTrainTournament pc o s
  | .trainCustom pc o => Sys2Proof.Machine.execTrainCustom pc o s

end Sys2Proof.Machine
end

