-- ==== Sys2Proof/Machine/Step.lean ====
section
/-! DEFINITION. One step: one command word (30_encoding.md R80, 60_exceptions.md R239). -/

namespace Sys2Proof.Machine

/-- The transition the next command word causes. With no word presented there is none (log 1). -/
def step (s : State) : Host.Outcome State Fault Refusal :=
  match takeCommand s with
  | none => .refused .noCommand
  | some (w, s') =>
    match decode s'.strategy w with
    | .ok i => exec i s'
    | .error r => .next (rejectCommand r s')

/-- The state in which the driver presents the word whose low `nbits` bits are those of `w` next. -/
def State.withFetchWord (s : State) (nbits w : Nat) : State :=
  presentCommand (tableWord nbits w) s

end Sys2Proof.Machine
end

