-- ==== Sys2Proof/Machine/Listing.lean ====
section
/-! DEFINITION. The line syntax of listings and the pseudo-command BRANCH (30_encoding.md R91, R92), from
the characters of a listing to command words. -/

namespace Sys2Proof.Machine

/-- A line of a listing (30_encoding.md R91, R92). -/
inductive Line where
  | configure (tag : BitVec 4) (f : SizeFields)
  | predict (pc : Pc)
  | train (pc : Pc) (o : Bool)
  | branch (pc : Pc) (o : Bool)
  deriving DecidableEq, Repr

/-- The commands of a line; BRANCH is PREDICT then TRAIN (30_encoding.md R92). -/
def expandLine : Line → List Command
  | .configure t f => [.configure t f]
  | .predict pc => [.predict pc]
  | .train pc o => [.train pc o]
  | .branch pc o => [.predict pc, .train pc o]

/-- The command words of a line. -/
def assembleLine (ln : Line) : List Word := (expandLine ln).map encodeCommand

/-! ## Characters to tokens -/

/-- A keyword, number or field assignment, or a comma. -/
inductive Token where
  | word (cs : List Char)
  | comma
  deriving DecidableEq, Repr

/-- End the word whose characters, last first, are `acc`. -/
def endWord (acc : List Char) (ts : List Token) : List Token :=
  if acc = [] then ts else .word acc.reverse :: ts

/-- The tokens of a line; a comment runs from `;` to the end of the line (30_encoding.md R91). -/
def tokenize : List Char → List Char → List Token
  | [], acc => endWord acc []
  | c :: cs, acc =>
    if c = ';' then endWord acc []
    else if c = ' ' ∨ c = '\t' then endWord acc (tokenize cs [])
    else if c = ',' then endWord acc (.comma :: tokenize cs [])
    else tokenize cs (c :: acc)

/-! ## Numbers, decimal or hexadecimal -/

/-- The value of a digit in a base up to 16. -/
def digitValue (base : Nat) (c : Char) : Option Nat :=
  let n := c.toNat
  let v :=
    if 48 ≤ n ∧ n ≤ 57 then n - 48
    else if 65 ≤ n ∧ n ≤ 70 then n - 55
    else if 97 ≤ n ∧ n ≤ 102 then n - 87
    else 16
  if v < base then some v else none

/-- The value of a digit string, read after the value `acc`. -/
def digitsValue (base : Nat) : List Char → Nat → Option Nat
  | [], acc => some acc
  | c :: cs, acc =>
    match digitValue base c with
    | some v => digitsValue base cs (base * acc + v)
    | none => none

/-- A number below `bound`: decimal, or `0x` and hexadecimal digits (30_encoding.md R91). -/
def number (bound : Nat) (cs : List Char) : Option Nat :=
  let v :=
    match cs with
    | [] => none
    | ['0', 'x'] => none
    | '0' :: 'x' :: ds => digitsValue 16 ds 0
    | ds => digitsValue 10 ds 0
  match v with
  | some n => if n < bound then some n else none
  | none => none

/-! ## Fields of a CONFIGURE line -/

/-- A size field of format C (30_encoding.md R83). -/
inductive FieldKey where
  | g | l | p | np | nw | th
  deriving DecidableEq, Repr

/-- The text before the value in a listing. -/
def fieldText : FieldKey → List Char
  | .g => ['g', '=']
  | .l => ['l', '=']
  | .p => ['p', '=']
  | .np => ['n', 'p', '=']
  | .nw => ['n', 'w', '=']
  | .th => ['t', 'h', '=']

/-- The number of values the field can carry. -/
def fieldBound : FieldKey → Nat
  | .g | .l | .p => 2 ^ 6
  | .np => 2 ^ 14
  | .nw => 2 ^ 8
  | .th => 2 ^ 16

/-- Store a value in a field. -/
def setField (k : FieldKey) (v : Nat) (f : SizeFields) : SizeFields :=
  match k with
  | .g => { f with g := BitVec.ofNat 6 v }
  | .l => { f with l := BitVec.ofNat 6 v }
  | .p => { f with p := BitVec.ofNat 6 v }
  | .np => { f with np := BitVec.ofNat 14 v }
  | .nw => { f with nw := BitVec.ofNat 8 v }
  | .th => { f with th := BitVec.ofNat 16 v }

/-- A field not written is encoded as 0 (30_encoding.md R91). -/
def noFields : SizeFields := { g := 0, l := 0, p := 0, np := 0, nw := 0, th := 0 }

/-- Read `cs` as an assignment to field `k`. -/
def assignField (k : FieldKey) (cs : List Char) (f : SizeFields) : Option SizeFields :=
  let text := fieldText k
  if cs.take text.length = text then
    match number (fieldBound k) (cs.drop text.length) with
    | some v => some (setField k v f)
    | none => none
  else none

/-- The fields `ks`, all of them and in this order, separated by commas. -/
def namedFields : List FieldKey → List Token → SizeFields → Option SizeFields
  | [], [], f => some f
  | k :: ks, .word cs :: ts, f =>
    match assignField k cs f with
    | none => none
    | some f' =>
      match ks, ts with
      | [], [] => some f'
      | k' :: ks', .comma :: ts' => namedFields (k' :: ks') ts' f'
      | _, _ => none
  | _, _, _ => none

/-- Any of the fields `ks`, in this order, separated by commas. -/
def optionalFields : List FieldKey → List Token → SizeFields → Option SizeFields
  | _, [], f => some f
  | k :: ks, .word cs :: ts, f =>
    match assignField k cs f with
    | none => optionalFields ks (.word cs :: ts) f
    | some f' =>
      match ts with
      | [] => some f'
      | .comma :: .word cs' :: ts' => optionalFields ks (.word cs' :: ts') f'
      | _ => none
  | _, _, _ => none

/-- The fields of the raw form; a comma before the first written field is allowed (log 13). -/
def rawFields (ts : List Token) : Option SizeFields :=
  let ts' := match ts with
    | .comma :: .word cs :: rest => .word cs :: rest
    | _ => ts
  optionalFields [.g, .l, .p, .np, .nw, .th] ts' noFields

/-! ## Lines -/

/-- A CONFIGURE line of a strategy whose fields are `ks`. -/
def configureLine (tag : BitVec 4) (ks : List FieldKey) (ts : List Token) : Option Line :=
  (namedFields ks ts noFields).map (Line.configure tag)

/-- What follows the keyword CONFIGURE (30_encoding.md R91). -/
def parseConfigure (kind : List Char) (ts : List Token) : Option Line :=
  if kind = "STATIC".toList then configureLine 0 [] ts
  else if kind = "GSHARE".toList then configureLine 1 [.g] ts
  else if kind = "LOCAL".toList then configureLine 2 [.l, .p] ts
  else if kind = "TOURNAMENT".toList then configureLine 3 [.g, .l, .p] ts
  else if kind = "CUSTOM".toList then configureLine 4 [.np, .nw, .th] ts
  else match kind with
    | '#' :: tag =>
      match number 16 tag, rawFields ts with
      | some t, some f => some (.configure (BitVec.ofNat 4 t) f)
      | _, _ => none
    | _ => none

/-- An outcome: `T` or `NT`. -/
def parseOutcome (cs : List Char) : Option Bool :=
  if cs = ['T'] then some true
  else if cs = ['N', 'T'] then some false
  else none

/-- A `<pc>` operand. -/
def parsePc (cs : List Char) : Option Pc := (number (2 ^ 32) cs).map (BitVec.ofNat 32)

/-- The line a list of tokens stands for (30_encoding.md R91, R92). -/
def parseTokens : List Token → Option Line
  | .word key :: .word kind :: ts =>
    if key = "CONFIGURE".toList then parseConfigure kind ts
    else
      match parsePc kind, ts with
      | some pc, [] => if key = "PREDICT".toList then some (.predict pc) else none
      | some pc, [.comma, .word out] =>
        match parseOutcome out with
        | some o =>
          if key = "TRAIN".toList then some (.train pc o)
          else if key = "BRANCH".toList then some (.branch pc o)
          else none
        | none => none
      | _, _ => none
  | _ => none

/-- The line written by `cs`. -/
def parseLine (cs : List Char) : Option Line := parseTokens (tokenize cs [])

/-- The words of one line of a listing; a line without a command gives none. -/
def lineWords (cs : List Char) : Option (List Word) :=
  match tokenize cs [] with
  | [] => some []
  | ts => (parseTokens ts).map assembleLine

/-- The command words of a listing, one command per line (30_encoding.md R91); `line` holds the characters
of the current line, the last first. -/
def assembleListing : List Char → List Char → Option (List Word)
  | [], line => lineWords line.reverse
  | c :: cs, line =>
    if c = '\n' then
      match lineWords line.reverse, assembleListing cs [] with
      | some ws, some ws' => some (ws ++ ws')
      | _, _ => none
    else assembleListing cs (c :: line)

end Sys2Proof.Machine
end

