-- ==== Sys2Proof/Safety.lean ====
section
/-! DEFINITION. What counts as a good run of the block, in the terms statements use: the lifecycle
conditions, the invariant, the order of checks on a raw word, the driver's protocol, and when two
states look alike to the driver. -/

namespace Sys2Proof.Machine

/-- The lifecycle conditions of 60_exceptions.md R243. -/
inductive Condition where
  | unconfigured | running | faulted
  deriving DecidableEq, Repr

/-- The condition a state is in (60_exceptions.md R243). -/
def State.condition (s : State) : Condition :=
  if s.fault then .faulted else if s.configured then .running else .unconfigured

/-- A run is in good standing where FAULT = 0 (70_reset_and_hazards.md R271). -/
def GoodStanding (s : State) : Prop := s.fault = false

/-- RUNNING under strategy `m`: CONFIGURED = 1, FAULT = 0 and STRATEGY = `m` (60_exceptions.md R243). -/
structure RunningUnder (m : Strategy) (s : State) : Prop where
  fault : s.fault = false
  configured : s.configured = true
  strategy : s.strategy = m

/-- UNCONFIGURED: CONFIGURED = 0 and FAULT = 0 (60_exceptions.md R243). -/
structure Unconfigured (s : State) : Prop where
  fault : s.fault = false
  configured : s.configured = false

/-- The operation is a PREDICT. -/
def isPredict : Instr → Bool
  | .predictStatic _ | .predictGshare _ | .predictLocal _
  | .predictTournament _ | .predictCustom _ => true
  | .configureStatic _ | .configureGshare _ | .configureLocal _
  | .configureTournament _ | .configureCustom _
  | .trainStatic _ _ | .trainGshare _ _ | .trainLocal _ _
  | .trainTournament _ _ | .trainCustom _ _ => false

/-- The prediction the driver may use after operation `i` left state `s'`: RSP.TAKEN of a PREDICT that
completed with STATUS 0, and none otherwise (30_encoding.md R90, 60_exceptions.md R242). -/
def prediction (i : Instr) (s' : State) : Option Bool :=
  if isPredict i && decide (s'.rspStatus = 0) then some s'.rspTaken else none

/-! ## The invariant -/

/-- The parameter registers as the fields a CONFIGURE stored (10_state.md R24). -/
def State.sizes (s : State) : SizeFields :=
  { g := s.g, l := s.l, p := s.p, np := s.np, nw := s.nw, th := s.th }

/-- The Global instance exists (10_state.md R34, R38). -/
def hasGlobal (m : Strategy) : Bool := m == .gshare || m == .tournament

/-- The Local instance exists (10_state.md R34, R38). -/
def hasLocal (m : Strategy) : Bool := m == .localHist || m == .tournament

/-- What holds in every reachable state: the rules of 10_state.md R39, the canonical form of the tables,
and the ranges of the registers. -/
structure MachineInv (s : State) : Prop where
  /-- The build parameters are legal (00_scope.md R7). -/
  build : s.build.Legal
  /-- The tables are in canonical form. -/
  tables : Memory.wf s = true
  /-- Without a fault CAUSE is 0 and every response was OK (10_state.md R22, 60_exceptions.md R231). -/
  healthy : s.fault = false → s.cause = 0 ∧ s.rspStatus = 0
  /-- A faulted block holds a cause 1 to 6 and answers it (60_exceptions.md R231, R242). -/
  faulted : s.fault = true → 1 ≤ s.cause.toNat ∧ s.cause.toNat ≤ 6 ∧ s.rspStatus = s.cause
  /-- RSP.TAKEN is 0 whenever RSP.STATUS is not 0 (30_encoding.md R80). -/
  taken : s.rspTaken = true → s.rspStatus = 0
  /-- The stored parameters are legal for the strategy (10_state.md R24). -/
  sizes : s.configured = true → sizesLegal s.build s.strategy s.sizes = true
  /-- GHR has G bits and PHT has 2^G entries (10_state.md R25, R26, R39). -/
  globalRange : s.configured = true → hasGlobal s.strategy = true →
    s.ghr.toNat < 2 ^ s.g.toNat ∧ Table.below (2 ^ s.g.toNat) s.pht = true
  /-- LHT has 2^P entries of L bits and LPT has 2^L entries (10_state.md R27, R28, R39). -/
  localRange : s.configured = true → hasLocal s.strategy = true →
    (∀ e ∈ s.lht, e.1 < 2 ^ s.p.toNat ∧ e.2.toNat < 2 ^ s.l.toNat) ∧
    Table.below (2 ^ s.l.toNat) s.lpt = true
  /-- CH has 2^P entries (10_state.md R29). -/
  chooserRange : s.configured = true → s.strategy = .tournament →
    Table.below (2 ^ s.p.toNat) s.ch = true
  /-- H has NW bits, B has NP elements and W has NP rows of NW (10_state.md R30, R31, R32, R39). -/
  bankRange : s.configured = true → s.strategy = .custom →
    s.h.toNat < 2 ^ s.nw.toNat ∧ Table.below s.np.toNat s.b = true ∧
    (∀ e ∈ s.w, ∃ p i, p < s.np.toNat ∧ i < s.nw.toNat ∧ e.1 = weightIndex p i)
  /-- The scratch record of an unconsumed PREDICT is never stale (10_state.md R39(e),
  45_perceptron.md R189). -/
  scratch : s.configured = true → s.strategy = .custom → s.scV = true →
    s.scIdx = pidx s.scPc s ∧ s.scY = ysum s s.scIdx.toNat

/-! ## The order of checks on a raw word -/

/-- The fault a word raises in a block that is not faulted, read off the bits of the word in the order of
60_exceptions.md R239; none if the command is performed. -/
def firstFault (s : State) (w : Word) : Option Cause :=
  let op := (w >>> 60).toNat
  let tag := ((w >>> 56) &&& 0xF).toNat
  if op = 1 then
    if s.configured then some .reconfigure
    else if 4 < tag then some .cfgBadStrategy
    else
      let legal := match tag with
        | 0 => true
        | 1 => sizesLegal s.build .gshare (sizeFields w)
        | 2 => sizesLegal s.build .localHist (sizeFields w)
        | 3 => sizesLegal s.build .tournament (sizeFields w)
        | _ => sizesLegal s.build .custom (sizeFields w)
      if legal then none else some .cfgBadSize
  else if op = 2 then
    if w &&& 0x0FFFFFFF00000000 ≠ 0 then some .illegalCommand
    else if s.configured then none else some .notConfigured
  else if op = 3 then
    if w &&& 0x0FFFFFFE00000000 ≠ 0 then some .illegalCommand
    else if !s.configured then some .notConfigured
    else if s.strategy = .custom ∧ ¬ (s.scV = true ∧ s.scPc = w.setWidth 32) then
      some .trainUnpaired
    else none
  else some .illegalCommand

/-! ## The driver's protocol -/

/-- The words a driver issues for a sequence of branches: for each, PREDICT pc and then TRAIN pc, outcome
(70_reset_and_hazards.md R262), laid out as 30_encoding.md R82 gives them. -/
def branchWords : List (Pc × Bool) → List Word
  | [] => []
  | (pc, o) :: rest =>
    (0x2#4 ++ 0#28 ++ pc) :: (0x3#4 ++ 0#27 ++ BitVec.ofBool o ++ pc) :: branchWords rest

/-! ## States that look alike -/

/-- The states agree on the data state and the parameters that strategy `m` has (10_state.md R34). The
scratch fields count only while SC.V = 1 (R33). -/
def SameData (m : Strategy) (s t : State) : Prop :=
  match m with
  | .static => True
  | .gshare => s.g = t.g ∧ s.ghr = t.ghr ∧ s.pht = t.pht
  | .localHist => s.l = t.l ∧ s.p = t.p ∧ s.lht = t.lht ∧ s.lpt = t.lpt
  | .tournament =>
    s.g = t.g ∧ s.ghr = t.ghr ∧ s.pht = t.pht ∧
    s.l = t.l ∧ s.p = t.p ∧ s.lht = t.lht ∧ s.lpt = t.lpt ∧ s.ch = t.ch
  | .custom =>
    s.np = t.np ∧ s.nw = t.nw ∧ s.th = t.th ∧ s.h = t.h ∧ s.w = t.w ∧ s.b = t.b ∧
    s.scV = t.scV ∧
    (s.scV = true → s.scPc = t.scPc ∧ s.scIdx = t.scIdx ∧ s.scY = t.scY)

/-- The states agree on everything the spec gives a value: the control registers, the response, and, once
configured, the strategy with its data state (10_state.md R34, R40). -/
structure SameVisible (s t : State) : Prop where
  build : s.build = t.build
  cmds : s.cmds = t.cmds
  configured : s.configured = t.configured
  fault : s.fault = t.fault
  cause : s.cause = t.cause
  rspTaken : s.rspTaken = t.rspTaken
  rspStatus : s.rspStatus = t.rspStatus
  strategy : s.configured = true → s.strategy = t.strategy
  data : s.configured = true → SameData s.strategy s t

end Sys2Proof.Machine
end

