-- ==== Sys2Proof/Certificates/Slice0/Obligations.lean ====
section
/-! DEFINITION. The statements for the provers, and the few words they are written in. -/

namespace Sys2Proof.Claims

open Sys2Proof.Machine

/-- The word of `PREDICT pc` (30_encoding.md R82): OP = 0x2, bits 59:32 zero. -/
def predictWord (pc : Pc) : Word := 0x2#4 ++ 0#28 ++ pc

/-- The word of `TRAIN pc, o` (30_encoding.md R82): OP = 0x3, bits 59:33 zero, O in bit 32. -/
def trainWord (pc : Pc) (o : Bool) : Word := 0x3#4 ++ 0#27 ++ BitVec.ofBool o ++ pc

/-- The word of a CONFIGURE (30_encoding.md R83): OP = 0x1, STRAT, G, L, P, NP, NW, TH. -/
def configureWord (tag : BitVec 4) (f : SizeFields) : Word :=
  0x1#4 ++ tag ++ f.g ++ f.l ++ f.p ++ f.np ++ f.nw ++ f.th

/-- Operation `i` takes `s` to `t`: `exec` answers it, and a step on the word `w` answers it whatever
the driver presents later. -/
def RunsAs (i : Instr) (w : Word) (s t : State) : Prop :=
  exec i s = .next t ∧
  ∀ rest, step { s with cmds := w :: rest } = .next { t with cmds := rest }

/-- `s` with fault code `c` taken, as 60_exceptions.md R240 says: FAULT, CAUSE and the response. -/
def faultedWith (c : Status) (s : State) : State :=
  { s with fault := true, cause := c, rspStatus := c, rspTaken := false }

/-- `k` steps. -/
def runSteps (k : Nat) (s : State) : Result := Host.Core.run Sys2Proof.core k s

/-- The size conditions of 46_facade.md R210. -/
def SizesInRange (b : BuildParams) (m : Strategy) (f : SizeFields) : Prop :=
  match m with
  | .static => True
  | .gshare => 1 ≤ f.g.toNat ∧ f.g.toNat ≤ b.maxBits
  | .localHist =>
    (1 ≤ f.l.toNat ∧ f.l.toNat ≤ b.maxBits) ∧ (1 ≤ f.p.toNat ∧ f.p.toNat ≤ b.maxBits)
  | .tournament =>
    (1 ≤ f.g.toNat ∧ f.g.toNat ≤ b.maxBits) ∧ (1 ≤ f.l.toNat ∧ f.l.toNat ≤ b.maxBits) ∧
    (1 ≤ f.p.toNat ∧ f.p.toNat ≤ b.maxBits)
  | .custom =>
    (1 ≤ f.np.toNat ∧ f.np.toNat ≤ b.maxNP ∧ ∃ k, f.np.toNat = 2 ^ k) ∧
    (1 ≤ f.nw.toNat ∧ f.nw.toNat ≤ b.maxNW)

/-- The signed sum of 45_perceptron.md R178 as one sum over the history bits. -/
def sumOf (s : State) (p : Nat) : Int :=
  (readB s p).toInt +
    ∑ i ∈ Finset.range s.nw.toNat,
      (if s.h.getLsbD i then (readW s p i).toInt else -(readW s p i).toInt)

/-- What an LHT entry keeps of a shifted history: its low `K` bits, or all of it in an implementation
without a mask (43_local.md R150). -/
def keepBits : Option Nat → Nat → Nat
  | none, v => v
  | some K, v => v % 2 ^ K

/-- Local.predict of an implementation whose LHT is `lht`, of entries of any width, and whose other state is
`s`'s (43_local.md R147, R150). -/
def widePredict (pc : Pc) (lht : Nat → Nat) (s : State) : Bool :=
  dir2 (readLpt s (lht (aidx pc s) % 2 ^ s.l.toNat))

/-- Local.train of that implementation: the LPT entry of the old history, then the LHT entry, of which it
keeps `width` (43_local.md R148, R150). -/
def wideTrain (width : Option Nat) (x : (Nat → Nat) × State) (b : Pc × Bool) :
    (Nat → Nat) × State :=
  let a := aidx b.1 x.2
  let h := x.1 a % 2 ^ x.2.l.toNat
  (Function.update x.1 a (keepBits width (2 * x.1 a + b.2.toNat)),
    writeLpt h (upd2 (readLpt x.2 h) b.2) x.2)

end Sys2Proof.Claims

open Sys2Proof Sys2Proof.Machine Sys2Proof.Claims

/-! ## Encoding and decoding -/

/-- Words that 95_test_vectors.md section 2 assembles or disassembles, read by the decoder. The last clause
is the model's choice (log 8): the spec has that word decode to a CONFIGURE with STRAT = 15 that faults
when executed, and the model's decoder rejects it by name. -/
def Obligations.SpecWordsDecodeToTheirOperations : Prop :=
  decode .static 0x1000000000000000 = .ok (.configureStatic ⟨0, 0, 0, 0, 0, 0⟩) ∧
  decode .static 0x1110000000000000 = .ok (.configureGshare ⟨4, 0, 0, 0, 0, 0⟩) ∧
  decode .static 0x1200308000000000 = .ok (.configureLocal ⟨0, 3, 2, 0, 0, 0⟩) ∧
  decode .static 0x1308108000000000 = .ok (.configureTournament ⟨2, 1, 2, 0, 0, 0⟩) ∧
  decode .static 0x1400000004050010 = .ok (.configureCustom ⟨0, 0, 0, 4, 5, 16⟩) ∧
  decode .gshare 0x200000001234ABCD = .ok (.predictGshare 0x1234ABCD) ∧
  decode .custom 0x3000000100000004 = .ok (.trainCustom 0x4 true) ∧
  decode .tournament 0x3000000000000004 = .ok (.trainTournament 0x4 false) ∧
  decode .custom 0x3800000000000004 = .error .reservedBits ∧
  decode .custom 0x4000000000000000 = .error .reservedOpcode ∧
  decode .custom 0x1FFFFFFFFFFFFFFF = .error (.badStrategyTag 15)

/-- Decoding an encoded operation gives it back, for every operation a block in mode `m` can be given
and every operand (30_encoding.md R82, R83, R84, R88). -/
def Obligations.DecodeOfEncodeIsTheOperation : Prop :=
  ∀ (m : Strategy) (i : Instr), i.wellFormed m = true → decode m (encode i) = .ok i

/-- A word that decodes is the encoding of what it decodes to, so no bit of it is dropped
(30_encoding.md R81 to R84). -/
def Obligations.EncodeOfDecodeIsTheWord : Prop :=
  ∀ (m : Strategy) (w : Word) (i : Instr), decode m w = .ok i →
    encode i = w ∧ i.wellFormed m = true

/-- Every command survives encoding, the CONFIGUREs with a bad tag among them (30_encoding.md R89). -/
def Obligations.CommandSurvivesEncoding : Prop :=
  ∀ c : Command, decodeCommand (encodeCommand c) = .ok c

/-- The words the decoder rejects, by reason, in terms of the word's value: the illegal ones
(30_encoding.md R86, R89), and, by the model's choice (log 8), every CONFIGURE with a tag 5 to 15, which
R86 calls a legal encoding of a bad operand and R89 decodes to a CONFIGURE. -/
def Obligations.RejectedWordsAreTheReservedOnes : Prop :=
  ∀ (m : Strategy) (w : Word),
    let op := w.toNat / 2 ^ 60
    (decode m w = .error .reservedOpcode ↔ op ≠ 1 ∧ op ≠ 2 ∧ op ≠ 3) ∧
    (decode m w = .error .reservedBits ↔
      (op = 2 ∧ w.toNat / 2 ^ 32 % 2 ^ 28 ≠ 0) ∨ (op = 3 ∧ w.toNat / 2 ^ 33 % 2 ^ 27 ≠ 0)) ∧
    (∀ t : BitVec 4, decode m w = .error (.badStrategyTag t) ↔
      op = 1 ∧ t.toNat = w.toNat / 2 ^ 56 % 2 ^ 4 ∧ 5 ≤ t.toNat)

/-- The opcode map: a word selects one of the fifteen rows exactly when its masked bits match and STRATEGY
is the row's mode, the operands are the word's fields, and OP 0x0 and 0x4 to 0xF are reserved
(30_encoding.md R84). -/
def Obligations.WordSelectsRowByMaskMatchAndMode : Prop :=
  ∀ (m : Strategy) (w : Word),
    let f : SizeFields :=
      { g := (w >>> 50).setWidth 6, l := (w >>> 44).setWidth 6, p := (w >>> 38).setWidth 6,
        np := (w >>> 24).setWidth 14, nw := (w >>> 16).setWidth 8, th := w.setWidth 16 }
    let pc : Pc := w.setWidth 32
    let o := w.getLsbD 32
    (decode m w = .error .reservedOpcode ↔ w >>> 60 ≠ 1 ∧ w >>> 60 ≠ 2 ∧ w >>> 60 ≠ 3) ∧
    (decode m w = .ok (.configureStatic f) ↔ w &&& 0xFF00000000000000 = 0x1000000000000000) ∧
    (decode m w = .ok (.configureGshare f) ↔ w &&& 0xFF00000000000000 = 0x1100000000000000) ∧
    (decode m w = .ok (.configureLocal f) ↔ w &&& 0xFF00000000000000 = 0x1200000000000000) ∧
    (decode m w = .ok (.configureTournament f) ↔ w &&& 0xFF00000000000000 = 0x1300000000000000) ∧
    (decode m w = .ok (.configureCustom f) ↔ w &&& 0xFF00000000000000 = 0x1400000000000000) ∧
    (decode m w = .ok (.predictStatic pc) ↔
      w &&& 0xFFFFFFFF00000000 = 0x2000000000000000 ∧ m = .static) ∧
    (decode m w = .ok (.predictGshare pc) ↔
      w &&& 0xFFFFFFFF00000000 = 0x2000000000000000 ∧ m = .gshare) ∧
    (decode m w = .ok (.predictLocal pc) ↔
      w &&& 0xFFFFFFFF00000000 = 0x2000000000000000 ∧ m = .localHist) ∧
    (decode m w = .ok (.predictTournament pc) ↔
      w &&& 0xFFFFFFFF00000000 = 0x2000000000000000 ∧ m = .tournament) ∧
    (decode m w = .ok (.predictCustom pc) ↔
      w &&& 0xFFFFFFFF00000000 = 0x2000000000000000 ∧ m = .custom) ∧
    (decode m w = .ok (.trainStatic pc o) ↔
      w &&& 0xFFFFFFFE00000000 = 0x3000000000000000 ∧ m = .static) ∧
    (decode m w = .ok (.trainGshare pc o) ↔
      w &&& 0xFFFFFFFE00000000 = 0x3000000000000000 ∧ m = .gshare) ∧
    (decode m w = .ok (.trainLocal pc o) ↔
      w &&& 0xFFFFFFFE00000000 = 0x3000000000000000 ∧ m = .localHist) ∧
    (decode m w = .ok (.trainTournament pc o) ↔
      w &&& 0xFFFFFFFE00000000 = 0x3000000000000000 ∧ m = .tournament) ∧
    (decode m w = .ok (.trainCustom pc o) ↔
      w &&& 0xFFFFFFFE00000000 = 0x3000000000000000 ∧ m = .custom)

/-- BRANCH stands for the words of PREDICT and then of TRAIN, and listings of 30_encoding.md R91 assemble
to the words of 95_test_vectors.md section 2. -/
def Obligations.ListingLinesAssembleToTheirWords : Prop :=
  (∀ (pc : Pc) (o : Bool), assembleLine (.branch pc o) = [predictWord pc, trainWord pc o]) ∧
  assembleListing "CONFIGURE TOURNAMENT g=2, l=1, p=2".toList [] = some [0x1308108000000000] ∧
  assembleListing "CONFIGURE CUSTOM np=4, nw=5, th=16".toList [] = some [0x1400000004050010] ∧
  assembleListing "CONFIGURE #7 g=4".toList [] = some [0x1710000000000000] ∧
  assembleListing "BRANCH 0x8, NT ; both".toList [] =
    some [0x2000000000000008, 0x3000000000000008]

/-! ## A step -/

/-- A step on a word that decodes is `exec` of the operation, after the word is taken from the port
(30_encoding.md R80, 60_exceptions.md R239). -/
def Obligations.StepRunsTheDecodedOperation : Prop :=
  ∀ (s : State) (w : Word) (rest : List Word) (i : Instr),
    s.cmds = w :: rest → decode s.strategy w = .ok i →
    step s = exec i { s with cmds := rest }

/-- Every command word, whatever its bits and whatever the state, causes one transition, which takes the
word and leaves the driver's later words and the build parameters alone. The second clause, that without
a word there is no transition, is the model's choice (log 1). -/
def Obligations.EveryWordCausesOneTransition : Prop :=
  (∀ (s : State) (w : Word) (rest : List Word), s.cmds = w :: rest →
    ∃ t, step s = .next t ∧ t.cmds = rest ∧ t.build = s.build) ∧
  (∀ s : State, s.cmds = [] → step s = .refused .noCommand)

/-- Only a performed CONFIGURE writes a control register or a parameter register, and no operation writes
the driver's words or the build parameters (10_state.md R21, R23, R24; 20_memory.md R69). -/
def Obligations.OnlyConfigureWritesControlRegisters : Prop :=
  ∀ (i : Instr) (s t : State), exec i s = .next t →
    (t.cmds = s.cmds ∧ t.build = s.build) ∧
    ((t.configured = s.configured ∧ t.strategy = s.strategy ∧ t.sizes = s.sizes) ∨
      (i.mode = none ∧ s.fault = false ∧ s.configured = false ∧ t.configured = true))

/-! ## The counter and the history shift -/

/-- The complete transition and output table of the saturating counter (41_counter.md R114). -/
def Obligations.CounterTransitionTable : Prop :=
  [0, 1, 2, 3].map (fun c : Counter =>
      (dir2 c, inc2 c, dec2 c, upd2 c true, upd2 c false)) =
    [(false, 1, 0, 1, 0), (false, 2, 0, 2, 0), (true, 3, 1, 3, 1), (true, 3, 2, 3, 2)]

/-- The laws of the counter (41_counter.md R116). -/
def Obligations.CounterLaws : Prop :=
  (∀ c : Counter, (inc2 c).toNat ≤ 3 ∧ (dec2 c).toNat ≤ 3) ∧
  (∀ c : Counter, dec2 (inc2 c) = if c = 3 then 2 else c) ∧
  (∀ c : Counter, inc2 (dec2 c) = if c = 0 then 1 else c) ∧
  (∀ n : Nat, inc2^[n] 3 = 3 ∧ dec2^[n] 0 = 0) ∧
  (∀ (c : Counter) (o : Bool), dir2 (upd2 (upd2 c o) o) = o)

/-- The history shift, by value and bit by bit, for a history of `n` bits in a container of `w`
(41_counter.md R115). -/
def Obligations.HistoryShiftsInTheOutcome : Prop :=
  ∀ (w n : Nat) (h : BitVec w) (o : Bool), 1 ≤ n → n ≤ w →
    (shin h o n).toNat = (2 * h.toNat + o.toNat) % 2 ^ n ∧
    (shin h o n).getLsbD 0 = o ∧
    (∀ k, 1 ≤ k → k < n → (shin h o n).getLsbD k = h.getLsbD (k - 1)) ∧
    (∀ k, n ≤ k → (shin h o n).getLsbD k = false)

/-- Every index deriver as arithmetic on the pc, and its index inside the table (42_gshare.md R130,
43_local.md R145, R146, 44_tournament.md R161, 45_perceptron.md R176, 20_memory.md R62). -/
def Obligations.IndicesAreLowBitsAndInRange : Prop :=
  ∀ (s : State) (pc : Pc),
    gidx pc s = (pc.toNat % 2 ^ s.g.toNat) ^^^ (s.ghr.toNat % 2 ^ s.g.toNat) ∧
    gidx pc s < 2 ^ s.g.toNat ∧
    aidx pc s = pc.toNat % 2 ^ s.p.toNat ∧ aidx pc s < 2 ^ s.p.toNat ∧
    cidx pc s = aidx pc s ∧
    hidx pc s = (readLht s (aidx pc s)).toNat % 2 ^ s.l.toNat ∧ hidx pc s < 2 ^ s.l.toNat ∧
    (∀ k, s.np.toNat = 2 ^ k → (pidx pc s).toNat = pc.toNat % s.np.toNat)

/-- The perceptron's sum lies in the range of 45_perceptron.md R178 and fits the width Y_W of
00_scope.md R8, which is at most 16. -/
def Obligations.PerceptronSumFitsItsWidth : Prop :=
  ∀ (s : State) (p : Nat),
    let yw := 8 + Nat.clog 2 (s.nw.toNat + 1)
    (-128 * (s.nw.toNat + 1 : Int) ≤ ysum s p ∧ ysum s p ≤ 127 + 128 * (s.nw.toNat : Int)) ∧
    (-(2 ^ (yw - 1) : Int) ≤ ysum s p ∧ ysum s p < 2 ^ (yw - 1)) ∧ yw ≤ 16

/-! ## What each operation does -/

/-- PREDICT.STATIC answers STATIC_DIR and changes nothing else (46_facade.md R202). -/
def Obligations.PredictStaticAnswersStaticDir : Prop :=
  ∀ (s : State) (pc : Pc), RunningUnder .static s →
    RunsAs (.predictStatic pc) (predictWord pc) s
      { s with rspStatus := 0, rspTaken := s.build.staticDir }

/-- TRAIN.STATIC completes with STATUS 0 and changes nothing else (46_facade.md R203). -/
def Obligations.TrainStaticHasNoEffect : Prop :=
  ∀ (s : State) (pc : Pc) (o : Bool), RunningUnder .static s →
    RunsAs (.trainStatic pc o) (trainWord pc o) s { s with rspStatus := 0, rspTaken := false }

/-- PREDICT.GSHARE answers the direction of the PHT entry at `(pc ^ GHR) & mask(G)` and changes nothing
else (42_gshare.md R131). -/
def Obligations.PredictGshareReadsThePht : Prop :=
  ∀ (s : State) (pc : Pc), RunningUnder .gshare s →
    RunsAs (.predictGshare pc) (predictWord pc) s
      { s with
        rspStatus := 0
        rspTaken := dir2 (readPht s ((pc ^^^ s.ghr) &&& mask 32 s.g.toNat).toNat) }

/-- TRAIN.GSHARE moves the one PHT entry that the GHR of before selects, shifts GHR once, and changes
nothing else (42_gshare.md R132). -/
def Obligations.TrainGshareMovesOneCounterAndShiftsGhr : Prop :=
  ∀ (s : State) (pc : Pc) (o : Bool), RunningUnder .gshare s → Memory.wf s = true →
    let i := ((pc ^^^ s.ghr) &&& mask 32 s.g.toNat).toNat
    ∃ t, RunsAs (.trainGshare pc o) (trainWord pc o) s t ∧
      t = { s with
        pht := t.pht, ghr := shin s.ghr o s.g.toNat, rspStatus := 0, rspTaken := false } ∧
      ∀ j, readPht t j = if j = i then upd2 (readPht s i) o else readPht s j

/-- PREDICT.LOCAL answers the direction of the LPT entry that the address's history selects and changes
nothing else (43_local.md R147). -/
def Obligations.PredictLocalReadsTheLpt : Prop :=
  ∀ (s : State) (pc : Pc), RunningUnder .localHist s →
    let a := (pc &&& mask 32 s.p.toNat).toNat
    RunsAs (.predictLocal pc) (predictWord pc) s
      { s with
        rspStatus := 0
        rspTaken := dir2 (readLpt s (readLht s a &&& mask 32 s.l.toNat).toNat) }

/-- TRAIN.LOCAL moves the LPT entry that the history of before selects, shifts that one history, and
changes nothing else (43_local.md R148). -/
def Obligations.TrainLocalMovesThePreUpdateEntry : Prop :=
  ∀ (s : State) (pc : Pc) (o : Bool), RunningUnder .localHist s → Memory.wf s = true →
    let a := (pc &&& mask 32 s.p.toNat).toNat
    let h := (readLht s a &&& mask 32 s.l.toNat).toNat
    ∃ t, RunsAs (.trainLocal pc o) (trainWord pc o) s t ∧
      t = { s with lht := t.lht, lpt := t.lpt, rspStatus := 0, rspTaken := false } ∧
      (∀ j, readLpt t j = if j = h then upd2 (readLpt s h) o else readLpt s j) ∧
      (∀ j, readLht t j = if j = a then shin (readLht s a) o s.l.toNat else readLht s j)

/-- PREDICT.TOURNAMENT answers Global's direction where the chooser entry is above 1 and Local's elsewhere,
and changes nothing else (44_tournament.md R162). -/
def Obligations.PredictTournamentFollowsTheChooser : Prop :=
  ∀ (s : State) (pc : Pc), RunningUnder .tournament s →
    let c := (pc &&& mask 32 s.p.toNat).toNat
    let pg := dir2 (readPht s ((pc ^^^ s.ghr) &&& mask 32 s.g.toNat).toNat)
    let pl := dir2 (readLpt s (readLht s c &&& mask 32 s.l.toNat).toNat)
    RunsAs (.predictTournament pc) (predictWord pc) s
      { s with
        rspStatus := 0
        rspTaken := if 1 < (readCh s c).toNat then pg else pl }

/-- TRAIN.TOURNAMENT: the chooser entry moves toward the one predictor that alone was right before the
command, both predictors are trained whole, GHR is shifted once, and nothing else changes
(44_tournament.md R163). -/
def Obligations.TrainTournamentTrainsAllThreeParts : Prop :=
  ∀ (s : State) (pc : Pc) (o : Bool), RunningUnder .tournament s → Memory.wf s = true →
    let c := (pc &&& mask 32 s.p.toNat).toNat
    let i := ((pc ^^^ s.ghr) &&& mask 32 s.g.toNat).toNat
    let h := (readLht s c &&& mask 32 s.l.toNat).toNat
    let gc := dir2 (readPht s i) = o
    let lc := dir2 (readLpt s h) = o
    ∃ t, RunsAs (.trainTournament pc o) (trainWord pc o) s t ∧
      t = { s with
        pht := t.pht, ghr := shin s.ghr o s.g.toNat, lht := t.lht, lpt := t.lpt, ch := t.ch
        rspStatus := 0, rspTaken := false } ∧
      (gc ∧ ¬ lc → ∀ j, readCh t j = if j = c then inc2 (readCh s c) else readCh s j) ∧
      (lc ∧ ¬ gc → ∀ j, readCh t j = if j = c then dec2 (readCh s c) else readCh s j) ∧
      ((gc ↔ lc) → t.ch = s.ch) ∧
      (∀ j, readPht t j = if j = i then upd2 (readPht s i) o else readPht s j) ∧
      (∀ j, readLpt t j = if j = h then upd2 (readLpt s h) o else readLpt s j) ∧
      (∀ j, readLht t j = if j = c then shin (readLht s c) o s.l.toNat else readLht s j)

/-- PREDICT.CUSTOM answers whether the exact sum is at least 0, leaves the scratch record, and changes
nothing else (45_perceptron.md R179). -/
def Obligations.PredictCustomAnswersTheSignOfTheSum : Prop :=
  ∀ (s : State) (pc : Pc), RunningUnder .custom s →
    let p : BitVec 14 := (pc &&& (s.np.setWidth 32 - 1)).setWidth 14
    let y := sumOf s p.toNat
    RunsAs (.predictCustom pc) (predictWord pc) s
      { s with
        scV := true, scPc := pc, scIdx := p, scY := y
        rspStatus := 0, rspTaken := decide (0 ≤ y) }

/-- TRAIN.CUSTOM on a paired record: if the prediction was wrong or `abs(y) < TH`, every weight of the row
and its bias take one clamped step; in any case H is shifted once and SC.V cleared; nothing else changes
(45_perceptron.md R180 to R184). -/
def Obligations.TrainCustomTakesOneClampedStep : Prop :=
  ∀ (s : State) (pc : Pc) (o : Bool), RunningUnder .custom s → Memory.wf s = true →
    s.scV = true → s.scPc = pc →
    let p := s.scIdx.toNat
    let upd := decide (0 ≤ s.scY) ≠ o ∨ s.scY.natAbs < s.th.toNat
    ∃ t, RunsAs (.trainCustom pc o) (trainWord pc o) s t ∧
      t = { s with
        w := t.w, b := t.b, h := shin s.h o s.nw.toNat, scV := false
        rspStatus := 0, rspTaken := false } ∧
      (upd → ∀ q j, j < 255 → (readW t q j).toInt =
        if q = p ∧ j < s.nw.toNat then
          max (-128) (min 127 ((readW s q j).toInt + if s.h.getLsbD j = o then 1 else -1))
        else (readW s q j).toInt) ∧
      (upd → ∀ q, (readB t q).toInt =
        if q = p then max (-128) (min 127 ((readB s q).toInt + if o then 1 else -1))
        else (readB s q).toInt) ∧
      (¬ upd → t.w = s.w ∧ t.b = s.b)

/-- CONFIGURE.STATIC: the control and parameter registers, and no data state (46_facade.md R205). -/
def Obligations.ConfigureStaticLatchesTheFields : Prop :=
  ∀ (s : State) (f : SizeFields), Unconfigured s →
    RunsAs (.configureStatic f) (configureWord 0 f) s
      { s with
        configured := true, strategy := .static
        g := f.g, l := f.l, p := f.p, np := f.np, nw := f.nw, th := f.th
        rspStatus := 0, rspTaken := false }

/-- CONFIGURE.GSHARE: with G in range, GHR 0 and every PHT entry 1, whatever the unused fields are; with G
out of range CFG_BAD_SIZE and no other write (46_facade.md R206). -/
def Obligations.ConfigureGshareInitialisesThePht : Prop :=
  ∀ (s : State) (f : SizeFields), Unconfigured s →
    (1 ≤ f.g.toNat ∧ f.g.toNat ≤ s.build.maxBits →
      ∃ t, RunsAs (.configureGshare f) (configureWord 1 f) s t ∧
        t = { s with
          configured := true, strategy := .gshare
          g := f.g, l := f.l, p := f.p, np := f.np, nw := f.nw, th := f.th
          ghr := 0, pht := t.pht, rspStatus := 0, rspTaken := false } ∧
        ∀ i, readPht t i = 1) ∧
    (¬ (1 ≤ f.g.toNat ∧ f.g.toNat ≤ s.build.maxBits) →
      exec (.configureGshare f) s = .next (faultedWith 2 s))

/-- CONFIGURE.LOCAL: with L and P in range, every LHT entry 0 and every LPT entry 1; otherwise CFG_BAD_SIZE
and no other write (46_facade.md R207). -/
def Obligations.ConfigureLocalInitialisesBothTables : Prop :=
  ∀ (s : State) (f : SizeFields), Unconfigured s →
    (SizesInRange s.build .localHist f →
      ∃ t, RunsAs (.configureLocal f) (configureWord 2 f) s t ∧
        t = { s with
          configured := true, strategy := .localHist
          g := f.g, l := f.l, p := f.p, np := f.np, nw := f.nw, th := f.th
          lht := t.lht, lpt := t.lpt, rspStatus := 0, rspTaken := false } ∧
        ∀ i, readLht t i = 0 ∧ readLpt t i = 1) ∧
    (¬ SizesInRange s.build .localHist f →
      exec (.configureLocal f) s = .next (faultedWith 2 s))

/-- CONFIGURE.TOURNAMENT: with G, L and P in range, GHR 0, PHT and LPT 1, LHT 0, CH CHOOSER_INIT; otherwise
CFG_BAD_SIZE and no other write (46_facade.md R208). -/
def Obligations.ConfigureTournamentInitialisesFourTables : Prop :=
  ∀ (s : State) (f : SizeFields), Unconfigured s →
    (SizesInRange s.build .tournament f →
      ∃ t, RunsAs (.configureTournament f) (configureWord 3 f) s t ∧
        t = { s with
          configured := true, strategy := .tournament
          g := f.g, l := f.l, p := f.p, np := f.np, nw := f.nw, th := f.th
          ghr := 0, pht := t.pht, lht := t.lht, lpt := t.lpt, ch := t.ch
          rspStatus := 0, rspTaken := false } ∧
        ∀ i, readPht t i = 1 ∧ readLht t i = 0 ∧ readLpt t i = 1 ∧
          readCh t i = s.build.chooserInit) ∧
    (¬ SizesInRange s.build .tournament f →
      exec (.configureTournament f) s = .next (faultedWith 2 s))

/-- CONFIGURE.CUSTOM: with NP and NW legal and any TH, W, B and H zero and SC.V 0; otherwise CFG_BAD_SIZE and
no other write (46_facade.md R209). That SC.PC, SC.IDX and SC.Y keep their contents is the model's choice
(log 11): 10_state.md R40 leaves them unspecified. -/
def Obligations.ConfigureCustomClearsTheBank : Prop :=
  ∀ (s : State) (f : SizeFields), Unconfigured s →
    (SizesInRange s.build .custom f →
      ∃ t, RunsAs (.configureCustom f) (configureWord 4 f) s t ∧
        t = { s with
          configured := true, strategy := .custom
          g := f.g, l := f.l, p := f.p, np := f.np, nw := f.nw, th := f.th
          w := t.w, b := t.b, h := 0, scV := false, rspStatus := 0, rspTaken := false } ∧
        (∀ p i, readW t p i = 0) ∧ (∀ p, readB t p = 0)) ∧
    (¬ SizesInRange s.build .custom f →
      exec (.configureCustom f) s = .next (faultedWith 2 s))

/-- The first PREDICT after a CONFIGURE: NOT_TAKEN for every pc under GSHARE, LOCAL and TOURNAMENT (under
any CHOOSER_INIT), TAKEN under CUSTOM (95_test_vectors.md section 8). -/
def Obligations.FirstPredictionAfterConfigure : Prop :=
  ∀ (s t : State) (f : SizeFields) (pc : Pc), Unconfigured s →
    (SizesInRange s.build .gshare f → exec (.configureGshare f) s = .next t →
      exec (.predictGshare pc) t = .next { t with rspTaken := false }) ∧
    (SizesInRange s.build .localHist f → exec (.configureLocal f) s = .next t →
      exec (.predictLocal pc) t = .next { t with rspTaken := false }) ∧
    (SizesInRange s.build .tournament f → exec (.configureTournament f) s = .next t →
      exec (.predictTournament pc) t = .next { t with rspTaken := false }) ∧
    (SizesInRange s.build .custom f → exec (.configureCustom f) s = .next t →
      ∃ u, exec (.predictCustom pc) t = .next u ∧ u.rspTaken = true ∧ u.scY = 0)

/-! ## Faults -/

/-- The codes of the six causes (60_exceptions.md R231). -/
def Obligations.CauseCodesAreOneToSix : Prop :=
  [Cause.cfgBadStrategy, .cfgBadSize, .notConfigured, .reconfigure, .trainUnpaired,
    .illegalCommand].map Cause.code = [1, 2, 3, 4, 5, 6]

/-- Before a successful CONFIGURE every PREDICT and every TRAIN raises NOT_CONFIGURED, whatever STRATEGY
holds (60_exceptions.md R234). -/
def Obligations.UseBeforeConfigureRaisesNotConfigured : Prop :=
  ∀ (s : State) (pc : Pc) (o : Bool), Unconfigured s →
    (∀ i : Instr, i.mode ≠ none → exec i s = .next (faultedWith 3 s)) ∧
    (∀ rest, step { s with cmds := predictWord pc :: rest } =
      .next { faultedWith 3 s with cmds := rest }) ∧
    (∀ rest, step { s with cmds := trainWord pc o :: rest } =
      .next { faultedWith 3 s with cmds := rest })

/-- In a configured block every word with OP = 0x1 raises RECONFIGURE, whatever its tag and sizes
(60_exceptions.md R235, R239). -/
def Obligations.SecondConfigureRaisesReconfigure : Prop :=
  ∀ (s : State) (fields : BitVec 60) (rest : List Word), s.fault = false → s.configured = true →
    (∀ i : Instr, i.mode = none → exec i s = .next (faultedWith 4 s)) ∧
    step { s with cmds := (0x1#4 ++ fields : Word) :: rest } =
      .next { faultedWith 4 s with cmds := rest }

/-- In an unconfigured block a CONFIGURE with STRAT 5 to 15 raises CFG_BAD_STRATEGY, whatever its sizes
(60_exceptions.md R232). -/
def Obligations.UnknownTagRaisesCfgBadStrategy : Prop :=
  ∀ (s : State) (tag : BitVec 4) (f : SizeFields) (rest : List Word), Unconfigured s →
    5 ≤ tag.toNat →
    step { s with cmds := configureWord tag f :: rest } =
      .next { faultedWith 1 s with cmds := rest }

/-- In an unconfigured block a CONFIGURE of a known strategy raises CFG_BAD_SIZE when a size the strategy
uses is out of its range, and writes nothing else (60_exceptions.md R233, 46_facade.md R210). -/
def Obligations.OutOfRangeSizeRaisesCfgBadSize : Prop :=
  ∀ (s : State) (m : Strategy) (f : SizeFields), Unconfigured s → ¬ SizesInRange s.build m f →
    RunsAs (configureVariant f m) (configureWord m.tag f) s (faultedWith 2 s)

/-- TRAIN.CUSTOM raises TRAIN_UNPAIRED when SC.V = 0 or SC.PC differs from pc in any of its 32 bits
(45_perceptron.md R185, 60_exceptions.md R236). -/
def Obligations.UnpairedTrainRaisesTrainUnpaired : Prop :=
  ∀ (s : State) (pc : Pc) (o : Bool), RunningUnder .custom s →
    (s.scV = false ∨ s.scPc ≠ pc) →
    RunsAs (.trainCustom pc o) (trainWord pc o) s (faultedWith 5 s)

/-- Which TRAINs under CUSTOM are legal after two PREDICTs: the one of the last pc, once; the other
raises TRAIN_UNPAIRED, and so does every second TRAIN, of whatever pc and outcome (45_perceptron.md
R186). -/
def Obligations.OnlyTheLastPredictCanBeTrainedOnce : Prop :=
  ∀ (s : State) (pcA pcB : Pc) (o : Bool), RunningUnder .custom s →
    ∃ t u v, exec (.predictCustom pcA) s = .next t ∧ exec (.predictCustom pcB) t = .next u ∧
      (pcA ≠ pcB → ∀ oA, exec (.trainCustom pcA oA) u = .next (faultedWith 5 u)) ∧
      exec (.trainCustom pcB o) u = .next v ∧ v.fault = false ∧
      (∀ pcC oC, exec (.trainCustom pcC oC) v = .next (faultedWith 5 v))

/-- A word with a reserved opcode or a reserved bit raises ILLEGAL_COMMAND, configured or not
(60_exceptions.md R237, R239). -/
def Obligations.ReservedWordRaisesIllegalCommand : Prop :=
  ∀ (s : State) (w : Word) (rest : List Word), s.fault = false →
    let op := w.toNat / 2 ^ 60
    ((op ≠ 1 ∧ op ≠ 2 ∧ op ≠ 3) ∨ (op = 2 ∧ w.toNat / 2 ^ 32 % 2 ^ 28 ≠ 0) ∨
      (op = 3 ∧ w.toNat / 2 ^ 33 % 2 ^ 27 ≠ 0)) →
    step { s with cmds := w :: rest } = .next { faultedWith 6 s with cmds := rest }

/-- The order of checks on one word: a faulted block answers its cause and changes nothing; else the first
fault that applies is raised, and with none the command is performed with STATUS 0
(60_exceptions.md R239). -/
def Obligations.CommandRaisesTheFirstFaultThatApplies : Prop :=
  ∀ (s : State) (w : Word) (rest : List Word), s.cmds = w :: rest →
    (s.fault = true →
      step s = .next { s with cmds := rest, rspStatus := s.cause, rspTaken := false }) ∧
    (s.fault = false → ∀ c, firstFault s w = some c →
      step s = .next { faultedWith c.code s with cmds := rest }) ∧
    (s.fault = false → firstFault s w = none →
      ∃ i t, decode s.strategy w = .ok i ∧ exec i { s with cmds := rest } = .next t ∧
        step s = .next t ∧ t.fault = false ∧ t.cause = s.cause ∧ t.rspStatus = 0)

/-- Faults are precise: a step that sets FAULT writes FAULT, CAUSE and the response and nothing else, with
one code for CAUSE and RSP.STATUS, one of 1 to 6 (60_exceptions.md R240). -/
def Obligations.FaultEntryWritesNothingElse : Prop :=
  ∀ (s t : State), s.fault = false → step s = .next t → t.fault = true →
    t = { faultedWith t.cause s with cmds := t.cmds } ∧
    1 ≤ t.cause.toNat ∧ t.cause.toNat ≤ 6

/-- With FAULT = 1 every operation and every command word, legal or not, changes no state and answers the
first cause (60_exceptions.md R242). -/
def Obligations.FaultedBlockOnlyAnswersItsCause : Prop :=
  ∀ (s : State), s.fault = true →
    (∀ i : Instr, exec i s = .next { s with rspStatus := s.cause, rspTaken := false }) ∧
    (∀ (w : Word) (rest : List Word), step { s with cmds := w :: rest } =
      .next { s with cmds := rest, rspStatus := s.cause, rspTaken := false })

/-- A faulted block stays faulted with its first cause and its whole state along every run
(60_exceptions.md R241). -/
def Obligations.FaultIsAbsorbingAlongRuns : Prop :=
  ∀ (k : Nat) (s t : State), s.fault = true → runSteps k s = .next t →
    t = { s with
      cmds := s.cmds.drop k, rspStatus := t.rspStatus, rspTaken := t.rspTaken } ∧
    (0 < k → t.rspStatus = s.cause ∧ t.rspTaken = false)

/-- How one step moves between the lifecycle conditions (60_exceptions.md R243): an unconfigured block
starts running or faults, a running block runs on or faults, a faulted block stays faulted. -/
def Obligations.LifecycleMovesForwardOnly : Prop :=
  ∀ (s t : State), step s = .next t →
    match s.condition with
    | .unconfigured => t.condition = .running ∨ t.condition = .faulted
    | .running => t.condition = .running ∨ t.condition = .faulted
    | .faulted => t.condition = .faulted

/-! ## Whole-machine rules -/

/-- Power-on leaves CONFIGURED, FAULT and CAUSE 0, as the state after reset has them, and no command clears
CONFIGURED or FAULT (70_reset_and_hazards.md R260). -/
def Obligations.PowerOnAloneClearsConfiguredAndFault : Prop :=
  (∀ s : State, Unconfigured (powerOn s) ∧ (powerOn s).cause = 0) ∧
  (Unconfigured State.reset ∧ State.reset.cause = 0) ∧
  (∀ (i : Instr) (s t : State), exec i s = .next t →
    (s.configured = true → t.configured = true) ∧ (s.fault = true → t.fault = true)) ∧
  (∀ s t : State, step s = .next t →
    (s.configured = true → t.configured = true) ∧ (s.fault = true → t.fault = true))

/-- The invariant holds after power-on. It rests on the values of logs 2 to 6. -/
def Obligations.InvHoldsAfterPowerOn : Prop := MachineInv State.reset

/-- Every step keeps the invariant: legal parameters, canonical tables with indices and histories in range,
a sound response, and a scratch record that is never stale (10_state.md R39). -/
def Obligations.StepKeepsInv : Prop :=
  ∀ (s t : State), MachineInv s → step s = .next t → MachineInv t

/-- STRATEGY, the parameters and CONFIGURED never change in the rest of a lifetime once CONFIGURED is 1
(10_state.md R21, R23, R24, R39(d)). -/
def Obligations.ConfigurationIsFixedForTheLifetime : Prop :=
  ∀ (k : Nat) (s t : State), s.configured = true → runSteps k s = .next t →
    t.configured = true ∧ t.strategy = s.strategy ∧ t.sizes = s.sizes

/-- A PREDICT can be repeated, with any PREDICT between, and answers the same (20_memory.md R64,
42_gshare.md R134). -/
def Obligations.PredictionsDoNotDisturbEachOther : Prop :=
  ∀ (i j : Instr) (s t u v : State), isPredict i = true → isPredict j = true →
    exec i s = .next t → exec j t = .next u → exec i u = .next v →
    v.rspTaken = t.rspTaken ∧ v.rspStatus = t.rspStatus

/-- A driver that keeps the protocol of 70_reset_and_hazards.md R262 is never answered with a fault: any
sequence of branches, each predicted and then trained, runs from any running block under every strategy
(60_exceptions.md R249). -/
def Obligations.DriverProtocolNeverFaults : Prop :=
  ∀ (bs : List (Pc × Bool)) (s : State) (rest : List Word),
    s.fault = false → s.configured = true → s.cmds = branchWords bs ++ rest →
    ∃ t, runSteps (2 * bs.length) s = .next t ∧ GoodStanding t ∧ t.cmds = rest

/-- The global histories hold the last outcomes, newest in bit 0, each branch shifted in once: GHR under
GSHARE and TOURNAMENT, H under CUSTOM (10_state.md R25, R32; 70_reset_and_hazards.md R265). -/
def Obligations.GlobalHistoryHoldsTheLastOutcomes : Prop :=
  ∀ (bs : List (Pc × Bool)) (s t : State) (rest : List Word),
    s.fault = false → s.configured = true → s.cmds = branchWords bs ++ rest →
    runSteps (2 * bs.length) s = .next t →
    ∀ (k : Nat) (b : Pc × Bool), bs.reverse[k]? = some b →
      (hasGlobal s.strategy = true → k < s.g.toNat → k < 32 → t.ghr.getLsbD k = b.2) ∧
      (s.strategy = .custom → k < s.nw.toNat → t.h.getLsbD k = b.2)

/-- An LHT entry holds the last outcomes of the branches that map to it, and of no other branch
(10_state.md R27, 43_local.md R151). -/
def Obligations.LocalHistoryHoldsItsOwnOutcomes : Prop :=
  ∀ (bs : List (Pc × Bool)) (s t : State) (rest : List Word) (a : Nat),
    s.fault = false → s.configured = true → hasLocal s.strategy = true → Memory.wf s = true →
    s.cmds = branchWords bs ++ rest → runSteps (2 * bs.length) s = .next t →
    ∀ (k : Nat) (b : Pc × Bool),
      (bs.filter (fun x => x.1.toNat % 2 ^ s.p.toNat = a)).reverse[k]? = some b →
      k < s.l.toNat → k < 32 → (readLht t a).getLsbD k = b.2

/-- A branch trained TAKEN G or more times in a row settles on the PHT entry `(~pc) & mask(G)`
(42_gshare.md R135). -/
def Obligations.RepeatedTakenBranchSettlesOnTheComplement : Prop :=
  ∀ (n : Nat) (s : State) (pc : Pc) (rest : List Word), RunningUnder .gshare s →
    1 ≤ s.g.toNat → s.g.toNat ≤ n → s.cmds = List.replicate n (trainWord pc true) ++ rest →
    ∃ t, runSteps n s = .next t ∧ t.g = s.g ∧ t.ghr = mask 32 s.g.toNat ∧
      gidx pc t = (~~~pc &&& mask 32 s.g.toNat).toNat

/-- The chooser moves exactly when the two predictions differ, toward the one that equals the outcome
(44_tournament.md R165). -/
def Obligations.ChooserMovesOnlyOnDisagreement : Prop :=
  ∀ (s t : State) (pc : Pc) (o : Bool), RunningUnder .tournament s → Memory.wf s = true →
    exec (.trainTournament pc o) s = .next t →
    (globalPredict pc s = localPredict pc s → t.ch = s.ch) ∧
    (globalPredict pc s ≠ localPredict pc s →
      ∀ j, readCh t j =
        if j ≠ cidx pc s then readCh s j
        else if globalPredict pc s = o then inc2 (readCh s j)
        else dec2 (readCh s j))

/-- The three parts of TRAIN.TOURNAMENT may be performed in each of the six orders, the chooser update
captured first (44_tournament.md R164, R167). -/
def Obligations.ArbiterPartsCommute : Prop :=
  ∀ (s : State) (pc : Pc) (o : Bool),
    let ch' := (chooserTrain pc o s).ch
    arbiterTrain pc o s = localTrain pc o (globalTrain pc o { s with ch := ch' }) ∧
    arbiterTrain pc o s = globalTrain pc o (localTrain pc o { s with ch := ch' }) ∧
    arbiterTrain pc o s = localTrain pc o { globalTrain pc o s with ch := ch' } ∧
    arbiterTrain pc o s = globalTrain pc o { localTrain pc o s with ch := ch' } ∧
    arbiterTrain pc o s = { localTrain pc o (globalTrain pc o s) with ch := ch' } ∧
    arbiterTrain pc o s = { globalTrain pc o (localTrain pc o s) with ch := ch' } ∧
    arbiterTrain pc o s = globalTrain pc o (localTrain pc o (chooserTrain pc o s))

/-- TRAIN.CUSTOM may recompute the row and the sum from pc and the current state instead of carrying them
in SC: a paired TRAIN does what the rule says with `p = pc & (NP - 1)` and `y` the sum of that row over the
current W, B and H (45_perceptron.md R189). -/
def Obligations.ScratchRecordIsNeverStale : Prop :=
  ∀ (s : State) (pc : Pc) (o : Bool), MachineInv s → RunningUnder .custom s →
    s.scV = true → s.scPc = pc →
    let p : Nat := pc.toNat % s.np.toNat
    let y : Int := sumOf s p
    let upd := decide (0 ≤ y) ≠ o ∨ y.natAbs < s.th.toNat
    ∃ t, exec (.trainCustom pc o) s = .next t ∧
      t = { s with
        w := t.w, b := t.b, h := shin s.h o s.nw.toNat, scV := false
        rspStatus := 0, rspTaken := false } ∧
      (upd → ∀ q j, j < 255 → (readW t q j).toInt =
        if q = p ∧ j < s.nw.toNat then
          max (-128) (min 127 ((readW s q j).toInt + if s.h.getLsbD j = o then 1 else -1))
        else (readW s q j).toInt) ∧
      (upd → ∀ q, (readB t q).toInt =
        if q = p then max (-128) (min 127 ((readB s q).toInt + if o then 1 else -1))
        else (readB s q).toInt) ∧
      (¬ upd → t.w = s.w ∧ t.b = s.b)

/-- An implementation whose LHT keeps K bits an entry, for any K of at least L, or every bit without a mask,
has after every sequence of trainings the low L bits of every entry that the L-bit LHT has, the same LPT,
and the same prediction for every pc (43_local.md R150). L is at most 32 by 00_scope.md R7. -/
def Obligations.WiderLocalHistoryPredictsTheSame : Prop :=
  ∀ (width : Option Nat) (bs : List (Pc × Bool)) (lht : Nat → Nat) (s : State),
    s.l.toNat ≤ 32 → (∀ K, width = some K → s.l.toNat ≤ K) → Memory.wf s = true →
    (∀ a, lht a % 2 ^ s.l.toNat = (readLht s a).toNat) →
    let wide := bs.foldl (wideTrain width) (lht, s)
    let narrow := bs.foldl (fun s b => localTrain b.1 b.2 s) s
    (∀ a, wide.1 a % 2 ^ s.l.toNat = (readLht narrow a).toNat) ∧
    wide.2.lpt = narrow.lpt ∧
    ∀ pc, widePredict pc wide.1 wide.2 = localPredict pc narrow

/-- State that the active strategy does not have, and every register the spec leaves unspecified, is
invisible: two states that agree on everything else answer every command alike and go on agreeing
(10_state.md R34, R40; 46_facade.md R212). -/
def Obligations.StepCannotSeeAbsentState : Prop :=
  ∀ (s t s' : State), SameVisible s t → step s = .next s' →
    ∃ t', step t = .next t' ∧ SameVisible s' t'

/-- Nothing of an earlier lifetime, and nothing unspecified after power-on, is ever seen: after power-on
any two blocks with the same build parameters answer the same commands alike, for any number of steps
(10_state.md R40, 70_reset_and_hazards.md R260, 60_exceptions.md R248). Before the first step the two
agree because the model's power-on sets the response to (0, 0), its choice (logs 6 and 12). -/
def Obligations.PowerOnContentsAreNeverSeen : Prop :=
  ∀ (k : Nat) (s t s' : State), s.build = t.build → s.cmds = t.cmds →
    runSteps k (powerOn s) = .next s' →
    ∃ t', runSteps k (powerOn t) = .next t' ∧ SameVisible s' t'
end

