-- ==== Sys2Proof/Laws/Counter.lean ====
section
/-! SUPPORT. The laws of masks, the history shift and the clamp, in plain numbers. -/

namespace Sys2Proof.Machine

@[simp] theorem toNat_and_mask {w : Nat} (x : BitVec w) (n : Nat) :
    (x &&& mask w n).toNat = x.toNat % 2 ^ n := by
  rw [mask, BitVec.toNat_and, BitVec.toNat_ofNat]
  rcases Nat.le_total n w with hn | hn
  · have hlt : 2 ^ n - 1 < 2 ^ w := by
      have h1 := Nat.pow_le_pow_right (n := 2) (by omega) hn
      have h2 := Nat.two_pow_pos n
      omega
    rw [Nat.mod_eq_of_lt hlt, Nat.and_two_pow_sub_one_eq_mod]
  · have hx : x.toNat < 2 ^ n := Nat.lt_of_lt_of_le x.isLt (Nat.pow_le_pow_right (by omega) hn)
    have hm : (2 ^ n - 1) % 2 ^ w = 2 ^ w - 1 := by
      obtain ⟨k, rfl⟩ := Nat.exists_eq_add_of_le hn
      have hk := Nat.two_pow_pos k
      have hw := Nat.two_pow_pos w
      have : 2 ^ (w + k) - 1 = (2 ^ w - 1) + 2 ^ w * (2 ^ k - 1) := by
        rw [Nat.pow_add, Nat.mul_sub, Nat.mul_one]
        have : 2 ^ w ≤ 2 ^ w * 2 ^ k := Nat.le_mul_of_pos_right _ hk
        omega
      rw [this, Nat.add_mul_mod_self_left, Nat.mod_eq_of_lt (by omega)]
    rw [hm, Nat.and_two_pow_sub_one_eq_mod, Nat.mod_eq_of_lt x.isLt, Nat.mod_eq_of_lt hx]

/-- Bit `k` of `mask(n)` is set exactly for `k < n`. -/
theorem getLsbD_mask (w n k : Nat) : (mask w n).getLsbD k = (decide (k < w) && decide (k < n)) := by
  simp [mask, BitVec.getLsbD_ofNat, Nat.testBit_two_pow_sub_one]

/-- The bits of a shifted history (41_counter.md R115): bit 0 is the outcome, bit `k + 1` is the old
bit `k`, and no bit at or above `n` is set. -/
theorem getLsbD_shin {w : Nat} (h : BitVec w) (o : Bool) (n k : Nat) (hk : k < w) (hn : k < n) :
    (shin h o n).getLsbD k = if k = 0 then o else h.getLsbD (k - 1) := by
  rw [shin, BitVec.getLsbD_and, BitVec.getLsbD_or, getLsbD_mask, BitVec.getLsbD_shiftLeft,
    BitVec.getLsbD_setWidth, BitVec.getLsbD_ofBool]
  rcases Nat.eq_zero_or_pos k with rfl | hpos
  · simp [hk, hn]
  · have h0 : k ≠ 0 := by omega
    have h1 : ¬ k < 1 := by omega
    simp [hk, hn, h0, h1]

theorem toNat_shin_lt {w : Nat} (h : BitVec w) (o : Bool) (n : Nat) :
    (shin h o n).toNat < 2 ^ n := by
  rw [shin, toNat_and_mask]
  exact Nat.mod_lt _ (Nat.two_pow_pos n)

/-- The stored value of `clamp8`, as an integer. -/
theorem toInt_clamp8 (v : Int) : (clamp8 v).toInt = max (-128) (min 127 v) := by
  rw [clamp8, BitVec.toInt_ofInt]
  have : ∀ x : Int, -128 ≤ x → x ≤ 127 → x.bmod (2 ^ 8) = x := by
    intro x h1 h2
    rw [Int.bmod_eq_of_le] <;> norm_num <;> omega
  split
  · rw [this _ (by omega) (by omega)]; omega
  · split
    · rw [this _ (by omega) (by omega)]; omega
    · rw [this _ (by omega) (by omega)]; omega

end Sys2Proof.Machine
end

