-- ==== Sys2Proof/Laws/State.lean ====
section
/-! SUPPORT. One lemma per field per state update, so that no proof unfolds a record update. -/

namespace Sys2Proof.Machine

@[simp] theorem complete_eq (s : State) : complete s = respond 0 false s := rfl
@[simp] theorem completePredict_eq (t : Bool) (s : State) : completePredict t s = respond 0 t s := rfl
@[simp] theorem answerFaulted_eq (s : State) : answerFaulted s = respond s.cause false s := rfl

@[simp] theorem respond_configured (status : Status) (taken : Bool) (s : State) : (respond status taken s).configured = s.configured := rfl
@[simp] theorem respond_fault (status : Status) (taken : Bool) (s : State) : (respond status taken s).fault = s.fault := rfl
@[simp] theorem respond_cause (status : Status) (taken : Bool) (s : State) : (respond status taken s).cause = s.cause := rfl
@[simp] theorem respond_strategy (status : Status) (taken : Bool) (s : State) : (respond status taken s).strategy = s.strategy := rfl
@[simp] theorem respond_g (status : Status) (taken : Bool) (s : State) : (respond status taken s).g = s.g := rfl
@[simp] theorem respond_l (status : Status) (taken : Bool) (s : State) : (respond status taken s).l = s.l := rfl
@[simp] theorem respond_p (status : Status) (taken : Bool) (s : State) : (respond status taken s).p = s.p := rfl
@[simp] theorem respond_np (status : Status) (taken : Bool) (s : State) : (respond status taken s).np = s.np := rfl
@[simp] theorem respond_nw (status : Status) (taken : Bool) (s : State) : (respond status taken s).nw = s.nw := rfl
@[simp] theorem respond_th (status : Status) (taken : Bool) (s : State) : (respond status taken s).th = s.th := rfl
@[simp] theorem respond_ghr (status : Status) (taken : Bool) (s : State) : (respond status taken s).ghr = s.ghr := rfl
@[simp] theorem respond_h (status : Status) (taken : Bool) (s : State) : (respond status taken s).h = s.h := rfl
@[simp] theorem respond_scV (status : Status) (taken : Bool) (s : State) : (respond status taken s).scV = s.scV := rfl
@[simp] theorem respond_scPc (status : Status) (taken : Bool) (s : State) : (respond status taken s).scPc = s.scPc := rfl
@[simp] theorem respond_scIdx (status : Status) (taken : Bool) (s : State) : (respond status taken s).scIdx = s.scIdx := rfl
@[simp] theorem respond_scY (status : Status) (taken : Bool) (s : State) : (respond status taken s).scY = s.scY := rfl
@[simp] theorem respond_pht (status : Status) (taken : Bool) (s : State) : (respond status taken s).pht = s.pht := rfl
@[simp] theorem respond_lht (status : Status) (taken : Bool) (s : State) : (respond status taken s).lht = s.lht := rfl
@[simp] theorem respond_lpt (status : Status) (taken : Bool) (s : State) : (respond status taken s).lpt = s.lpt := rfl
@[simp] theorem respond_ch (status : Status) (taken : Bool) (s : State) : (respond status taken s).ch = s.ch := rfl
@[simp] theorem respond_w (status : Status) (taken : Bool) (s : State) : (respond status taken s).w = s.w := rfl
@[simp] theorem respond_b (status : Status) (taken : Bool) (s : State) : (respond status taken s).b = s.b := rfl
@[simp] theorem respond_rspTaken (status : Status) (taken : Bool) (s : State) : (respond status taken s).rspTaken = taken := rfl
@[simp] theorem respond_rspStatus (status : Status) (taken : Bool) (s : State) : (respond status taken s).rspStatus = status := rfl
@[simp] theorem respond_cmds (status : Status) (taken : Bool) (s : State) : (respond status taken s).cmds = s.cmds := rfl
@[simp] theorem respond_build (status : Status) (taken : Bool) (s : State) : (respond status taken s).build = s.build := rfl

@[simp] theorem raise_configured (c : Cause) (s : State) : (raise c s).configured = s.configured := rfl
@[simp] theorem raise_fault (c : Cause) (s : State) : (raise c s).fault = true := rfl
@[simp] theorem raise_cause (c : Cause) (s : State) : (raise c s).cause = c.code := rfl
@[simp] theorem raise_strategy (c : Cause) (s : State) : (raise c s).strategy = s.strategy := rfl
@[simp] theorem raise_g (c : Cause) (s : State) : (raise c s).g = s.g := rfl
@[simp] theorem raise_l (c : Cause) (s : State) : (raise c s).l = s.l := rfl
@[simp] theorem raise_p (c : Cause) (s : State) : (raise c s).p = s.p := rfl
@[simp] theorem raise_np (c : Cause) (s : State) : (raise c s).np = s.np := rfl
@[simp] theorem raise_nw (c : Cause) (s : State) : (raise c s).nw = s.nw := rfl
@[simp] theorem raise_th (c : Cause) (s : State) : (raise c s).th = s.th := rfl
@[simp] theorem raise_ghr (c : Cause) (s : State) : (raise c s).ghr = s.ghr := rfl
@[simp] theorem raise_h (c : Cause) (s : State) : (raise c s).h = s.h := rfl
@[simp] theorem raise_scV (c : Cause) (s : State) : (raise c s).scV = s.scV := rfl
@[simp] theorem raise_scPc (c : Cause) (s : State) : (raise c s).scPc = s.scPc := rfl
@[simp] theorem raise_scIdx (c : Cause) (s : State) : (raise c s).scIdx = s.scIdx := rfl
@[simp] theorem raise_scY (c : Cause) (s : State) : (raise c s).scY = s.scY := rfl
@[simp] theorem raise_pht (c : Cause) (s : State) : (raise c s).pht = s.pht := rfl
@[simp] theorem raise_lht (c : Cause) (s : State) : (raise c s).lht = s.lht := rfl
@[simp] theorem raise_lpt (c : Cause) (s : State) : (raise c s).lpt = s.lpt := rfl
@[simp] theorem raise_ch (c : Cause) (s : State) : (raise c s).ch = s.ch := rfl
@[simp] theorem raise_w (c : Cause) (s : State) : (raise c s).w = s.w := rfl
@[simp] theorem raise_b (c : Cause) (s : State) : (raise c s).b = s.b := rfl
@[simp] theorem raise_rspTaken (c : Cause) (s : State) : (raise c s).rspTaken = false := rfl
@[simp] theorem raise_rspStatus (c : Cause) (s : State) : (raise c s).rspStatus = c.code := rfl
@[simp] theorem raise_cmds (c : Cause) (s : State) : (raise c s).cmds = s.cmds := rfl
@[simp] theorem raise_build (c : Cause) (s : State) : (raise c s).build = s.build := rfl

@[simp] theorem powerOn_configured (s : State) : (powerOn s).configured = false := rfl
@[simp] theorem powerOn_fault (s : State) : (powerOn s).fault = false := rfl
@[simp] theorem powerOn_cause (s : State) : (powerOn s).cause = 0 := rfl
@[simp] theorem powerOn_strategy (s : State) : (powerOn s).strategy = s.strategy := rfl
@[simp] theorem powerOn_g (s : State) : (powerOn s).g = s.g := rfl
@[simp] theorem powerOn_l (s : State) : (powerOn s).l = s.l := rfl
@[simp] theorem powerOn_p (s : State) : (powerOn s).p = s.p := rfl
@[simp] theorem powerOn_np (s : State) : (powerOn s).np = s.np := rfl
@[simp] theorem powerOn_nw (s : State) : (powerOn s).nw = s.nw := rfl
@[simp] theorem powerOn_th (s : State) : (powerOn s).th = s.th := rfl
@[simp] theorem powerOn_ghr (s : State) : (powerOn s).ghr = s.ghr := rfl
@[simp] theorem powerOn_h (s : State) : (powerOn s).h = s.h := rfl
@[simp] theorem powerOn_scV (s : State) : (powerOn s).scV = s.scV := rfl
@[simp] theorem powerOn_scPc (s : State) : (powerOn s).scPc = s.scPc := rfl
@[simp] theorem powerOn_scIdx (s : State) : (powerOn s).scIdx = s.scIdx := rfl
@[simp] theorem powerOn_scY (s : State) : (powerOn s).scY = s.scY := rfl
@[simp] theorem powerOn_pht (s : State) : (powerOn s).pht = s.pht := rfl
@[simp] theorem powerOn_lht (s : State) : (powerOn s).lht = s.lht := rfl
@[simp] theorem powerOn_lpt (s : State) : (powerOn s).lpt = s.lpt := rfl
@[simp] theorem powerOn_ch (s : State) : (powerOn s).ch = s.ch := rfl
@[simp] theorem powerOn_w (s : State) : (powerOn s).w = s.w := rfl
@[simp] theorem powerOn_b (s : State) : (powerOn s).b = s.b := rfl
@[simp] theorem powerOn_rspTaken (s : State) : (powerOn s).rspTaken = false := rfl
@[simp] theorem powerOn_rspStatus (s : State) : (powerOn s).rspStatus = 0 := rfl
@[simp] theorem powerOn_cmds (s : State) : (powerOn s).cmds = s.cmds := rfl
@[simp] theorem powerOn_build (s : State) : (powerOn s).build = s.build := rfl

@[simp] theorem presentCommand_configured (x : Word) (s : State) : (presentCommand x s).configured = s.configured := rfl
@[simp] theorem presentCommand_fault (x : Word) (s : State) : (presentCommand x s).fault = s.fault := rfl
@[simp] theorem presentCommand_cause (x : Word) (s : State) : (presentCommand x s).cause = s.cause := rfl
@[simp] theorem presentCommand_strategy (x : Word) (s : State) : (presentCommand x s).strategy = s.strategy := rfl
@[simp] theorem presentCommand_g (x : Word) (s : State) : (presentCommand x s).g = s.g := rfl
@[simp] theorem presentCommand_l (x : Word) (s : State) : (presentCommand x s).l = s.l := rfl
@[simp] theorem presentCommand_p (x : Word) (s : State) : (presentCommand x s).p = s.p := rfl
@[simp] theorem presentCommand_np (x : Word) (s : State) : (presentCommand x s).np = s.np := rfl
@[simp] theorem presentCommand_nw (x : Word) (s : State) : (presentCommand x s).nw = s.nw := rfl
@[simp] theorem presentCommand_th (x : Word) (s : State) : (presentCommand x s).th = s.th := rfl
@[simp] theorem presentCommand_ghr (x : Word) (s : State) : (presentCommand x s).ghr = s.ghr := rfl
@[simp] theorem presentCommand_h (x : Word) (s : State) : (presentCommand x s).h = s.h := rfl
@[simp] theorem presentCommand_scV (x : Word) (s : State) : (presentCommand x s).scV = s.scV := rfl
@[simp] theorem presentCommand_scPc (x : Word) (s : State) : (presentCommand x s).scPc = s.scPc := rfl
@[simp] theorem presentCommand_scIdx (x : Word) (s : State) : (presentCommand x s).scIdx = s.scIdx := rfl
@[simp] theorem presentCommand_scY (x : Word) (s : State) : (presentCommand x s).scY = s.scY := rfl
@[simp] theorem presentCommand_pht (x : Word) (s : State) : (presentCommand x s).pht = s.pht := rfl
@[simp] theorem presentCommand_lht (x : Word) (s : State) : (presentCommand x s).lht = s.lht := rfl
@[simp] theorem presentCommand_lpt (x : Word) (s : State) : (presentCommand x s).lpt = s.lpt := rfl
@[simp] theorem presentCommand_ch (x : Word) (s : State) : (presentCommand x s).ch = s.ch := rfl
@[simp] theorem presentCommand_w (x : Word) (s : State) : (presentCommand x s).w = s.w := rfl
@[simp] theorem presentCommand_b (x : Word) (s : State) : (presentCommand x s).b = s.b := rfl
@[simp] theorem presentCommand_rspTaken (x : Word) (s : State) : (presentCommand x s).rspTaken = s.rspTaken := rfl
@[simp] theorem presentCommand_rspStatus (x : Word) (s : State) : (presentCommand x s).rspStatus = s.rspStatus := rfl
@[simp] theorem presentCommand_cmds (x : Word) (s : State) : (presentCommand x s).cmds = x :: s.cmds := rfl
@[simp] theorem presentCommand_build (x : Word) (s : State) : (presentCommand x s).build = s.build := rfl

@[simp] theorem writePht_configured (i : Nat) (v : Counter) (s : State) : (writePht i v s).configured = s.configured := rfl
@[simp] theorem writePht_fault (i : Nat) (v : Counter) (s : State) : (writePht i v s).fault = s.fault := rfl
@[simp] theorem writePht_cause (i : Nat) (v : Counter) (s : State) : (writePht i v s).cause = s.cause := rfl
@[simp] theorem writePht_strategy (i : Nat) (v : Counter) (s : State) : (writePht i v s).strategy = s.strategy := rfl
@[simp] theorem writePht_g (i : Nat) (v : Counter) (s : State) : (writePht i v s).g = s.g := rfl
@[simp] theorem writePht_l (i : Nat) (v : Counter) (s : State) : (writePht i v s).l = s.l := rfl
@[simp] theorem writePht_p (i : Nat) (v : Counter) (s : State) : (writePht i v s).p = s.p := rfl
@[simp] theorem writePht_np (i : Nat) (v : Counter) (s : State) : (writePht i v s).np = s.np := rfl
@[simp] theorem writePht_nw (i : Nat) (v : Counter) (s : State) : (writePht i v s).nw = s.nw := rfl
@[simp] theorem writePht_th (i : Nat) (v : Counter) (s : State) : (writePht i v s).th = s.th := rfl
@[simp] theorem writePht_ghr (i : Nat) (v : Counter) (s : State) : (writePht i v s).ghr = s.ghr := rfl
@[simp] theorem writePht_h (i : Nat) (v : Counter) (s : State) : (writePht i v s).h = s.h := rfl
@[simp] theorem writePht_scV (i : Nat) (v : Counter) (s : State) : (writePht i v s).scV = s.scV := rfl
@[simp] theorem writePht_scPc (i : Nat) (v : Counter) (s : State) : (writePht i v s).scPc = s.scPc := rfl
@[simp] theorem writePht_scIdx (i : Nat) (v : Counter) (s : State) : (writePht i v s).scIdx = s.scIdx := rfl
@[simp] theorem writePht_scY (i : Nat) (v : Counter) (s : State) : (writePht i v s).scY = s.scY := rfl
@[simp] theorem writePht_pht (i : Nat) (v : Counter) (s : State) : (writePht i v s).pht = Table.write Config.ctrInit s.pht i v := rfl
@[simp] theorem writePht_lht (i : Nat) (v : Counter) (s : State) : (writePht i v s).lht = s.lht := rfl
@[simp] theorem writePht_lpt (i : Nat) (v : Counter) (s : State) : (writePht i v s).lpt = s.lpt := rfl
@[simp] theorem writePht_ch (i : Nat) (v : Counter) (s : State) : (writePht i v s).ch = s.ch := rfl
@[simp] theorem writePht_w (i : Nat) (v : Counter) (s : State) : (writePht i v s).w = s.w := rfl
@[simp] theorem writePht_b (i : Nat) (v : Counter) (s : State) : (writePht i v s).b = s.b := rfl
@[simp] theorem writePht_rspTaken (i : Nat) (v : Counter) (s : State) : (writePht i v s).rspTaken = s.rspTaken := rfl
@[simp] theorem writePht_rspStatus (i : Nat) (v : Counter) (s : State) : (writePht i v s).rspStatus = s.rspStatus := rfl
@[simp] theorem writePht_cmds (i : Nat) (v : Counter) (s : State) : (writePht i v s).cmds = s.cmds := rfl
@[simp] theorem writePht_build (i : Nat) (v : Counter) (s : State) : (writePht i v s).build = s.build := rfl

@[simp] theorem writeLht_configured (i : Nat) (v : Hist) (s : State) : (writeLht i v s).configured = s.configured := rfl
@[simp] theorem writeLht_fault (i : Nat) (v : Hist) (s : State) : (writeLht i v s).fault = s.fault := rfl
@[simp] theorem writeLht_cause (i : Nat) (v : Hist) (s : State) : (writeLht i v s).cause = s.cause := rfl
@[simp] theorem writeLht_strategy (i : Nat) (v : Hist) (s : State) : (writeLht i v s).strategy = s.strategy := rfl
@[simp] theorem writeLht_g (i : Nat) (v : Hist) (s : State) : (writeLht i v s).g = s.g := rfl
@[simp] theorem writeLht_l (i : Nat) (v : Hist) (s : State) : (writeLht i v s).l = s.l := rfl
@[simp] theorem writeLht_p (i : Nat) (v : Hist) (s : State) : (writeLht i v s).p = s.p := rfl
@[simp] theorem writeLht_np (i : Nat) (v : Hist) (s : State) : (writeLht i v s).np = s.np := rfl
@[simp] theorem writeLht_nw (i : Nat) (v : Hist) (s : State) : (writeLht i v s).nw = s.nw := rfl
@[simp] theorem writeLht_th (i : Nat) (v : Hist) (s : State) : (writeLht i v s).th = s.th := rfl
@[simp] theorem writeLht_ghr (i : Nat) (v : Hist) (s : State) : (writeLht i v s).ghr = s.ghr := rfl
@[simp] theorem writeLht_h (i : Nat) (v : Hist) (s : State) : (writeLht i v s).h = s.h := rfl
@[simp] theorem writeLht_scV (i : Nat) (v : Hist) (s : State) : (writeLht i v s).scV = s.scV := rfl
@[simp] theorem writeLht_scPc (i : Nat) (v : Hist) (s : State) : (writeLht i v s).scPc = s.scPc := rfl
@[simp] theorem writeLht_scIdx (i : Nat) (v : Hist) (s : State) : (writeLht i v s).scIdx = s.scIdx := rfl
@[simp] theorem writeLht_scY (i : Nat) (v : Hist) (s : State) : (writeLht i v s).scY = s.scY := rfl
@[simp] theorem writeLht_pht (i : Nat) (v : Hist) (s : State) : (writeLht i v s).pht = s.pht := rfl
@[simp] theorem writeLht_lht (i : Nat) (v : Hist) (s : State) : (writeLht i v s).lht = Table.write 0 s.lht i v := rfl
@[simp] theorem writeLht_lpt (i : Nat) (v : Hist) (s : State) : (writeLht i v s).lpt = s.lpt := rfl
@[simp] theorem writeLht_ch (i : Nat) (v : Hist) (s : State) : (writeLht i v s).ch = s.ch := rfl
@[simp] theorem writeLht_w (i : Nat) (v : Hist) (s : State) : (writeLht i v s).w = s.w := rfl
@[simp] theorem writeLht_b (i : Nat) (v : Hist) (s : State) : (writeLht i v s).b = s.b := rfl
@[simp] theorem writeLht_rspTaken (i : Nat) (v : Hist) (s : State) : (writeLht i v s).rspTaken = s.rspTaken := rfl
@[simp] theorem writeLht_rspStatus (i : Nat) (v : Hist) (s : State) : (writeLht i v s).rspStatus = s.rspStatus := rfl
@[simp] theorem writeLht_cmds (i : Nat) (v : Hist) (s : State) : (writeLht i v s).cmds = s.cmds := rfl
@[simp] theorem writeLht_build (i : Nat) (v : Hist) (s : State) : (writeLht i v s).build = s.build := rfl

@[simp] theorem writeLpt_configured (i : Nat) (v : Counter) (s : State) : (writeLpt i v s).configured = s.configured := rfl
@[simp] theorem writeLpt_fault (i : Nat) (v : Counter) (s : State) : (writeLpt i v s).fault = s.fault := rfl
@[simp] theorem writeLpt_cause (i : Nat) (v : Counter) (s : State) : (writeLpt i v s).cause = s.cause := rfl
@[simp] theorem writeLpt_strategy (i : Nat) (v : Counter) (s : State) : (writeLpt i v s).strategy = s.strategy := rfl
@[simp] theorem writeLpt_g (i : Nat) (v : Counter) (s : State) : (writeLpt i v s).g = s.g := rfl
@[simp] theorem writeLpt_l (i : Nat) (v : Counter) (s : State) : (writeLpt i v s).l = s.l := rfl
@[simp] theorem writeLpt_p (i : Nat) (v : Counter) (s : State) : (writeLpt i v s).p = s.p := rfl
@[simp] theorem writeLpt_np (i : Nat) (v : Counter) (s : State) : (writeLpt i v s).np = s.np := rfl
@[simp] theorem writeLpt_nw (i : Nat) (v : Counter) (s : State) : (writeLpt i v s).nw = s.nw := rfl
@[simp] theorem writeLpt_th (i : Nat) (v : Counter) (s : State) : (writeLpt i v s).th = s.th := rfl
@[simp] theorem writeLpt_ghr (i : Nat) (v : Counter) (s : State) : (writeLpt i v s).ghr = s.ghr := rfl
@[simp] theorem writeLpt_h (i : Nat) (v : Counter) (s : State) : (writeLpt i v s).h = s.h := rfl
@[simp] theorem writeLpt_scV (i : Nat) (v : Counter) (s : State) : (writeLpt i v s).scV = s.scV := rfl
@[simp] theorem writeLpt_scPc (i : Nat) (v : Counter) (s : State) : (writeLpt i v s).scPc = s.scPc := rfl
@[simp] theorem writeLpt_scIdx (i : Nat) (v : Counter) (s : State) : (writeLpt i v s).scIdx = s.scIdx := rfl
@[simp] theorem writeLpt_scY (i : Nat) (v : Counter) (s : State) : (writeLpt i v s).scY = s.scY := rfl
@[simp] theorem writeLpt_pht (i : Nat) (v : Counter) (s : State) : (writeLpt i v s).pht = s.pht := rfl
@[simp] theorem writeLpt_lht (i : Nat) (v : Counter) (s : State) : (writeLpt i v s).lht = s.lht := rfl
@[simp] theorem writeLpt_lpt (i : Nat) (v : Counter) (s : State) : (writeLpt i v s).lpt = Table.write Config.ctrInit s.lpt i v := rfl
@[simp] theorem writeLpt_ch (i : Nat) (v : Counter) (s : State) : (writeLpt i v s).ch = s.ch := rfl
@[simp] theorem writeLpt_w (i : Nat) (v : Counter) (s : State) : (writeLpt i v s).w = s.w := rfl
@[simp] theorem writeLpt_b (i : Nat) (v : Counter) (s : State) : (writeLpt i v s).b = s.b := rfl
@[simp] theorem writeLpt_rspTaken (i : Nat) (v : Counter) (s : State) : (writeLpt i v s).rspTaken = s.rspTaken := rfl
@[simp] theorem writeLpt_rspStatus (i : Nat) (v : Counter) (s : State) : (writeLpt i v s).rspStatus = s.rspStatus := rfl
@[simp] theorem writeLpt_cmds (i : Nat) (v : Counter) (s : State) : (writeLpt i v s).cmds = s.cmds := rfl
@[simp] theorem writeLpt_build (i : Nat) (v : Counter) (s : State) : (writeLpt i v s).build = s.build := rfl

@[simp] theorem writeCh_configured (i : Nat) (v : Counter) (s : State) : (writeCh i v s).configured = s.configured := rfl
@[simp] theorem writeCh_fault (i : Nat) (v : Counter) (s : State) : (writeCh i v s).fault = s.fault := rfl
@[simp] theorem writeCh_cause (i : Nat) (v : Counter) (s : State) : (writeCh i v s).cause = s.cause := rfl
@[simp] theorem writeCh_strategy (i : Nat) (v : Counter) (s : State) : (writeCh i v s).strategy = s.strategy := rfl
@[simp] theorem writeCh_g (i : Nat) (v : Counter) (s : State) : (writeCh i v s).g = s.g := rfl
@[simp] theorem writeCh_l (i : Nat) (v : Counter) (s : State) : (writeCh i v s).l = s.l := rfl
@[simp] theorem writeCh_p (i : Nat) (v : Counter) (s : State) : (writeCh i v s).p = s.p := rfl
@[simp] theorem writeCh_np (i : Nat) (v : Counter) (s : State) : (writeCh i v s).np = s.np := rfl
@[simp] theorem writeCh_nw (i : Nat) (v : Counter) (s : State) : (writeCh i v s).nw = s.nw := rfl
@[simp] theorem writeCh_th (i : Nat) (v : Counter) (s : State) : (writeCh i v s).th = s.th := rfl
@[simp] theorem writeCh_ghr (i : Nat) (v : Counter) (s : State) : (writeCh i v s).ghr = s.ghr := rfl
@[simp] theorem writeCh_h (i : Nat) (v : Counter) (s : State) : (writeCh i v s).h = s.h := rfl
@[simp] theorem writeCh_scV (i : Nat) (v : Counter) (s : State) : (writeCh i v s).scV = s.scV := rfl
@[simp] theorem writeCh_scPc (i : Nat) (v : Counter) (s : State) : (writeCh i v s).scPc = s.scPc := rfl
@[simp] theorem writeCh_scIdx (i : Nat) (v : Counter) (s : State) : (writeCh i v s).scIdx = s.scIdx := rfl
@[simp] theorem writeCh_scY (i : Nat) (v : Counter) (s : State) : (writeCh i v s).scY = s.scY := rfl
@[simp] theorem writeCh_pht (i : Nat) (v : Counter) (s : State) : (writeCh i v s).pht = s.pht := rfl
@[simp] theorem writeCh_lht (i : Nat) (v : Counter) (s : State) : (writeCh i v s).lht = s.lht := rfl
@[simp] theorem writeCh_lpt (i : Nat) (v : Counter) (s : State) : (writeCh i v s).lpt = s.lpt := rfl
@[simp] theorem writeCh_ch (i : Nat) (v : Counter) (s : State) : (writeCh i v s).ch = Table.write s.build.chooserInit s.ch i v := rfl
@[simp] theorem writeCh_w (i : Nat) (v : Counter) (s : State) : (writeCh i v s).w = s.w := rfl
@[simp] theorem writeCh_b (i : Nat) (v : Counter) (s : State) : (writeCh i v s).b = s.b := rfl
@[simp] theorem writeCh_rspTaken (i : Nat) (v : Counter) (s : State) : (writeCh i v s).rspTaken = s.rspTaken := rfl
@[simp] theorem writeCh_rspStatus (i : Nat) (v : Counter) (s : State) : (writeCh i v s).rspStatus = s.rspStatus := rfl
@[simp] theorem writeCh_cmds (i : Nat) (v : Counter) (s : State) : (writeCh i v s).cmds = s.cmds := rfl
@[simp] theorem writeCh_build (i : Nat) (v : Counter) (s : State) : (writeCh i v s).build = s.build := rfl

@[simp] theorem writeB_configured (i : Nat) (v : Weight) (s : State) : (writeB i v s).configured = s.configured := rfl
@[simp] theorem writeB_fault (i : Nat) (v : Weight) (s : State) : (writeB i v s).fault = s.fault := rfl
@[simp] theorem writeB_cause (i : Nat) (v : Weight) (s : State) : (writeB i v s).cause = s.cause := rfl
@[simp] theorem writeB_strategy (i : Nat) (v : Weight) (s : State) : (writeB i v s).strategy = s.strategy := rfl
@[simp] theorem writeB_g (i : Nat) (v : Weight) (s : State) : (writeB i v s).g = s.g := rfl
@[simp] theorem writeB_l (i : Nat) (v : Weight) (s : State) : (writeB i v s).l = s.l := rfl
@[simp] theorem writeB_p (i : Nat) (v : Weight) (s : State) : (writeB i v s).p = s.p := rfl
@[simp] theorem writeB_np (i : Nat) (v : Weight) (s : State) : (writeB i v s).np = s.np := rfl
@[simp] theorem writeB_nw (i : Nat) (v : Weight) (s : State) : (writeB i v s).nw = s.nw := rfl
@[simp] theorem writeB_th (i : Nat) (v : Weight) (s : State) : (writeB i v s).th = s.th := rfl
@[simp] theorem writeB_ghr (i : Nat) (v : Weight) (s : State) : (writeB i v s).ghr = s.ghr := rfl
@[simp] theorem writeB_h (i : Nat) (v : Weight) (s : State) : (writeB i v s).h = s.h := rfl
@[simp] theorem writeB_scV (i : Nat) (v : Weight) (s : State) : (writeB i v s).scV = s.scV := rfl
@[simp] theorem writeB_scPc (i : Nat) (v : Weight) (s : State) : (writeB i v s).scPc = s.scPc := rfl
@[simp] theorem writeB_scIdx (i : Nat) (v : Weight) (s : State) : (writeB i v s).scIdx = s.scIdx := rfl
@[simp] theorem writeB_scY (i : Nat) (v : Weight) (s : State) : (writeB i v s).scY = s.scY := rfl
@[simp] theorem writeB_pht (i : Nat) (v : Weight) (s : State) : (writeB i v s).pht = s.pht := rfl
@[simp] theorem writeB_lht (i : Nat) (v : Weight) (s : State) : (writeB i v s).lht = s.lht := rfl
@[simp] theorem writeB_lpt (i : Nat) (v : Weight) (s : State) : (writeB i v s).lpt = s.lpt := rfl
@[simp] theorem writeB_ch (i : Nat) (v : Weight) (s : State) : (writeB i v s).ch = s.ch := rfl
@[simp] theorem writeB_w (i : Nat) (v : Weight) (s : State) : (writeB i v s).w = s.w := rfl
@[simp] theorem writeB_b (i : Nat) (v : Weight) (s : State) : (writeB i v s).b = Table.write 0 s.b i v := rfl
@[simp] theorem writeB_rspTaken (i : Nat) (v : Weight) (s : State) : (writeB i v s).rspTaken = s.rspTaken := rfl
@[simp] theorem writeB_rspStatus (i : Nat) (v : Weight) (s : State) : (writeB i v s).rspStatus = s.rspStatus := rfl
@[simp] theorem writeB_cmds (i : Nat) (v : Weight) (s : State) : (writeB i v s).cmds = s.cmds := rfl
@[simp] theorem writeB_build (i : Nat) (v : Weight) (s : State) : (writeB i v s).build = s.build := rfl

@[simp] theorem shiftGhr_configured (o : Bool) (s : State) : (shiftGhr o s).configured = s.configured := rfl
@[simp] theorem shiftGhr_fault (o : Bool) (s : State) : (shiftGhr o s).fault = s.fault := rfl
@[simp] theorem shiftGhr_cause (o : Bool) (s : State) : (shiftGhr o s).cause = s.cause := rfl
@[simp] theorem shiftGhr_strategy (o : Bool) (s : State) : (shiftGhr o s).strategy = s.strategy := rfl
@[simp] theorem shiftGhr_g (o : Bool) (s : State) : (shiftGhr o s).g = s.g := rfl
@[simp] theorem shiftGhr_l (o : Bool) (s : State) : (shiftGhr o s).l = s.l := rfl
@[simp] theorem shiftGhr_p (o : Bool) (s : State) : (shiftGhr o s).p = s.p := rfl
@[simp] theorem shiftGhr_np (o : Bool) (s : State) : (shiftGhr o s).np = s.np := rfl
@[simp] theorem shiftGhr_nw (o : Bool) (s : State) : (shiftGhr o s).nw = s.nw := rfl
@[simp] theorem shiftGhr_th (o : Bool) (s : State) : (shiftGhr o s).th = s.th := rfl
@[simp] theorem shiftGhr_ghr (o : Bool) (s : State) : (shiftGhr o s).ghr = shin s.ghr o s.g.toNat := rfl
@[simp] theorem shiftGhr_h (o : Bool) (s : State) : (shiftGhr o s).h = s.h := rfl
@[simp] theorem shiftGhr_scV (o : Bool) (s : State) : (shiftGhr o s).scV = s.scV := rfl
@[simp] theorem shiftGhr_scPc (o : Bool) (s : State) : (shiftGhr o s).scPc = s.scPc := rfl
@[simp] theorem shiftGhr_scIdx (o : Bool) (s : State) : (shiftGhr o s).scIdx = s.scIdx := rfl
@[simp] theorem shiftGhr_scY (o : Bool) (s : State) : (shiftGhr o s).scY = s.scY := rfl
@[simp] theorem shiftGhr_pht (o : Bool) (s : State) : (shiftGhr o s).pht = s.pht := rfl
@[simp] theorem shiftGhr_lht (o : Bool) (s : State) : (shiftGhr o s).lht = s.lht := rfl
@[simp] theorem shiftGhr_lpt (o : Bool) (s : State) : (shiftGhr o s).lpt = s.lpt := rfl
@[simp] theorem shiftGhr_ch (o : Bool) (s : State) : (shiftGhr o s).ch = s.ch := rfl
@[simp] theorem shiftGhr_w (o : Bool) (s : State) : (shiftGhr o s).w = s.w := rfl
@[simp] theorem shiftGhr_b (o : Bool) (s : State) : (shiftGhr o s).b = s.b := rfl
@[simp] theorem shiftGhr_rspTaken (o : Bool) (s : State) : (shiftGhr o s).rspTaken = s.rspTaken := rfl
@[simp] theorem shiftGhr_rspStatus (o : Bool) (s : State) : (shiftGhr o s).rspStatus = s.rspStatus := rfl
@[simp] theorem shiftGhr_cmds (o : Bool) (s : State) : (shiftGhr o s).cmds = s.cmds := rfl
@[simp] theorem shiftGhr_build (o : Bool) (s : State) : (shiftGhr o s).build = s.build := rfl

@[simp] theorem shiftH_configured (o : Bool) (s : State) : (shiftH o s).configured = s.configured := rfl
@[simp] theorem shiftH_fault (o : Bool) (s : State) : (shiftH o s).fault = s.fault := rfl
@[simp] theorem shiftH_cause (o : Bool) (s : State) : (shiftH o s).cause = s.cause := rfl
@[simp] theorem shiftH_strategy (o : Bool) (s : State) : (shiftH o s).strategy = s.strategy := rfl
@[simp] theorem shiftH_g (o : Bool) (s : State) : (shiftH o s).g = s.g := rfl
@[simp] theorem shiftH_l (o : Bool) (s : State) : (shiftH o s).l = s.l := rfl
@[simp] theorem shiftH_p (o : Bool) (s : State) : (shiftH o s).p = s.p := rfl
@[simp] theorem shiftH_np (o : Bool) (s : State) : (shiftH o s).np = s.np := rfl
@[simp] theorem shiftH_nw (o : Bool) (s : State) : (shiftH o s).nw = s.nw := rfl
@[simp] theorem shiftH_th (o : Bool) (s : State) : (shiftH o s).th = s.th := rfl
@[simp] theorem shiftH_ghr (o : Bool) (s : State) : (shiftH o s).ghr = s.ghr := rfl
@[simp] theorem shiftH_h (o : Bool) (s : State) : (shiftH o s).h = shin s.h o s.nw.toNat := rfl
@[simp] theorem shiftH_scV (o : Bool) (s : State) : (shiftH o s).scV = s.scV := rfl
@[simp] theorem shiftH_scPc (o : Bool) (s : State) : (shiftH o s).scPc = s.scPc := rfl
@[simp] theorem shiftH_scIdx (o : Bool) (s : State) : (shiftH o s).scIdx = s.scIdx := rfl
@[simp] theorem shiftH_scY (o : Bool) (s : State) : (shiftH o s).scY = s.scY := rfl
@[simp] theorem shiftH_pht (o : Bool) (s : State) : (shiftH o s).pht = s.pht := rfl
@[simp] theorem shiftH_lht (o : Bool) (s : State) : (shiftH o s).lht = s.lht := rfl
@[simp] theorem shiftH_lpt (o : Bool) (s : State) : (shiftH o s).lpt = s.lpt := rfl
@[simp] theorem shiftH_ch (o : Bool) (s : State) : (shiftH o s).ch = s.ch := rfl
@[simp] theorem shiftH_w (o : Bool) (s : State) : (shiftH o s).w = s.w := rfl
@[simp] theorem shiftH_b (o : Bool) (s : State) : (shiftH o s).b = s.b := rfl
@[simp] theorem shiftH_rspTaken (o : Bool) (s : State) : (shiftH o s).rspTaken = s.rspTaken := rfl
@[simp] theorem shiftH_rspStatus (o : Bool) (s : State) : (shiftH o s).rspStatus = s.rspStatus := rfl
@[simp] theorem shiftH_cmds (o : Bool) (s : State) : (shiftH o s).cmds = s.cmds := rfl
@[simp] theorem shiftH_build (o : Bool) (s : State) : (shiftH o s).build = s.build := rfl

@[simp] theorem trainWeights_configured (o : Bool) (s : State) : (trainWeights o s).configured = s.configured := rfl
@[simp] theorem trainWeights_fault (o : Bool) (s : State) : (trainWeights o s).fault = s.fault := rfl
@[simp] theorem trainWeights_cause (o : Bool) (s : State) : (trainWeights o s).cause = s.cause := rfl
@[simp] theorem trainWeights_strategy (o : Bool) (s : State) : (trainWeights o s).strategy = s.strategy := rfl
@[simp] theorem trainWeights_g (o : Bool) (s : State) : (trainWeights o s).g = s.g := rfl
@[simp] theorem trainWeights_l (o : Bool) (s : State) : (trainWeights o s).l = s.l := rfl
@[simp] theorem trainWeights_p (o : Bool) (s : State) : (trainWeights o s).p = s.p := rfl
@[simp] theorem trainWeights_np (o : Bool) (s : State) : (trainWeights o s).np = s.np := rfl
@[simp] theorem trainWeights_nw (o : Bool) (s : State) : (trainWeights o s).nw = s.nw := rfl
@[simp] theorem trainWeights_th (o : Bool) (s : State) : (trainWeights o s).th = s.th := rfl
@[simp] theorem trainWeights_ghr (o : Bool) (s : State) : (trainWeights o s).ghr = s.ghr := rfl
@[simp] theorem trainWeights_h (o : Bool) (s : State) : (trainWeights o s).h = s.h := rfl
@[simp] theorem trainWeights_scV (o : Bool) (s : State) : (trainWeights o s).scV = s.scV := rfl
@[simp] theorem trainWeights_scPc (o : Bool) (s : State) : (trainWeights o s).scPc = s.scPc := rfl
@[simp] theorem trainWeights_scIdx (o : Bool) (s : State) : (trainWeights o s).scIdx = s.scIdx := rfl
@[simp] theorem trainWeights_scY (o : Bool) (s : State) : (trainWeights o s).scY = s.scY := rfl
@[simp] theorem trainWeights_pht (o : Bool) (s : State) : (trainWeights o s).pht = s.pht := rfl
@[simp] theorem trainWeights_lht (o : Bool) (s : State) : (trainWeights o s).lht = s.lht := rfl
@[simp] theorem trainWeights_lpt (o : Bool) (s : State) : (trainWeights o s).lpt = s.lpt := rfl
@[simp] theorem trainWeights_ch (o : Bool) (s : State) : (trainWeights o s).ch = s.ch := rfl
@[simp] theorem trainWeights_w (o : Bool) (s : State) : (trainWeights o s).w = trainRow s.scIdx.toNat s.h o s.nw.toNat s.w := rfl
@[simp] theorem trainWeights_b (o : Bool) (s : State) : (trainWeights o s).b = Table.write 0 s.b s.scIdx.toNat (trainedBias (readB s s.scIdx.toNat) o) := rfl
@[simp] theorem trainWeights_rspTaken (o : Bool) (s : State) : (trainWeights o s).rspTaken = s.rspTaken := rfl
@[simp] theorem trainWeights_rspStatus (o : Bool) (s : State) : (trainWeights o s).rspStatus = s.rspStatus := rfl
@[simp] theorem trainWeights_cmds (o : Bool) (s : State) : (trainWeights o s).cmds = s.cmds := rfl
@[simp] theorem trainWeights_build (o : Bool) (s : State) : (trainWeights o s).build = s.build := rfl

@[simp] theorem recordScratch_configured (pc : Pc) (s : State) : (recordScratch pc s).configured = s.configured := rfl
@[simp] theorem recordScratch_fault (pc : Pc) (s : State) : (recordScratch pc s).fault = s.fault := rfl
@[simp] theorem recordScratch_cause (pc : Pc) (s : State) : (recordScratch pc s).cause = s.cause := rfl
@[simp] theorem recordScratch_strategy (pc : Pc) (s : State) : (recordScratch pc s).strategy = s.strategy := rfl
@[simp] theorem recordScratch_g (pc : Pc) (s : State) : (recordScratch pc s).g = s.g := rfl
@[simp] theorem recordScratch_l (pc : Pc) (s : State) : (recordScratch pc s).l = s.l := rfl
@[simp] theorem recordScratch_p (pc : Pc) (s : State) : (recordScratch pc s).p = s.p := rfl
@[simp] theorem recordScratch_np (pc : Pc) (s : State) : (recordScratch pc s).np = s.np := rfl
@[simp] theorem recordScratch_nw (pc : Pc) (s : State) : (recordScratch pc s).nw = s.nw := rfl
@[simp] theorem recordScratch_th (pc : Pc) (s : State) : (recordScratch pc s).th = s.th := rfl
@[simp] theorem recordScratch_ghr (pc : Pc) (s : State) : (recordScratch pc s).ghr = s.ghr := rfl
@[simp] theorem recordScratch_h (pc : Pc) (s : State) : (recordScratch pc s).h = s.h := rfl
@[simp] theorem recordScratch_scV (pc : Pc) (s : State) : (recordScratch pc s).scV = true := rfl
@[simp] theorem recordScratch_scPc (pc : Pc) (s : State) : (recordScratch pc s).scPc = pc := rfl
@[simp] theorem recordScratch_scIdx (pc : Pc) (s : State) : (recordScratch pc s).scIdx = pidx pc s := rfl
@[simp] theorem recordScratch_scY (pc : Pc) (s : State) : (recordScratch pc s).scY = ysum s (pidx pc s).toNat := rfl
@[simp] theorem recordScratch_pht (pc : Pc) (s : State) : (recordScratch pc s).pht = s.pht := rfl
@[simp] theorem recordScratch_lht (pc : Pc) (s : State) : (recordScratch pc s).lht = s.lht := rfl
@[simp] theorem recordScratch_lpt (pc : Pc) (s : State) : (recordScratch pc s).lpt = s.lpt := rfl
@[simp] theorem recordScratch_ch (pc : Pc) (s : State) : (recordScratch pc s).ch = s.ch := rfl
@[simp] theorem recordScratch_w (pc : Pc) (s : State) : (recordScratch pc s).w = s.w := rfl
@[simp] theorem recordScratch_b (pc : Pc) (s : State) : (recordScratch pc s).b = s.b := rfl
@[simp] theorem recordScratch_rspTaken (pc : Pc) (s : State) : (recordScratch pc s).rspTaken = s.rspTaken := rfl
@[simp] theorem recordScratch_rspStatus (pc : Pc) (s : State) : (recordScratch pc s).rspStatus = s.rspStatus := rfl
@[simp] theorem recordScratch_cmds (pc : Pc) (s : State) : (recordScratch pc s).cmds = s.cmds := rfl
@[simp] theorem recordScratch_build (pc : Pc) (s : State) : (recordScratch pc s).build = s.build := rfl

@[simp] theorem latchConfiguration_configured (m : Strategy) (f : SizeFields) (s : State) : (latchConfiguration m f s).configured = true := rfl
@[simp] theorem latchConfiguration_fault (m : Strategy) (f : SizeFields) (s : State) : (latchConfiguration m f s).fault = s.fault := rfl
@[simp] theorem latchConfiguration_cause (m : Strategy) (f : SizeFields) (s : State) : (latchConfiguration m f s).cause = s.cause := rfl
@[simp] theorem latchConfiguration_strategy (m : Strategy) (f : SizeFields) (s : State) : (latchConfiguration m f s).strategy = m := rfl
@[simp] theorem latchConfiguration_g (m : Strategy) (f : SizeFields) (s : State) : (latchConfiguration m f s).g = f.g := rfl
@[simp] theorem latchConfiguration_l (m : Strategy) (f : SizeFields) (s : State) : (latchConfiguration m f s).l = f.l := rfl
@[simp] theorem latchConfiguration_p (m : Strategy) (f : SizeFields) (s : State) : (latchConfiguration m f s).p = f.p := rfl
@[simp] theorem latchConfiguration_np (m : Strategy) (f : SizeFields) (s : State) : (latchConfiguration m f s).np = f.np := rfl
@[simp] theorem latchConfiguration_nw (m : Strategy) (f : SizeFields) (s : State) : (latchConfiguration m f s).nw = f.nw := rfl
@[simp] theorem latchConfiguration_th (m : Strategy) (f : SizeFields) (s : State) : (latchConfiguration m f s).th = f.th := rfl
@[simp] theorem latchConfiguration_ghr (m : Strategy) (f : SizeFields) (s : State) : (latchConfiguration m f s).ghr = s.ghr := rfl
@[simp] theorem latchConfiguration_h (m : Strategy) (f : SizeFields) (s : State) : (latchConfiguration m f s).h = s.h := rfl
@[simp] theorem latchConfiguration_scV (m : Strategy) (f : SizeFields) (s : State) : (latchConfiguration m f s).scV = s.scV := rfl
@[simp] theorem latchConfiguration_scPc (m : Strategy) (f : SizeFields) (s : State) : (latchConfiguration m f s).scPc = s.scPc := rfl
@[simp] theorem latchConfiguration_scIdx (m : Strategy) (f : SizeFields) (s : State) : (latchConfiguration m f s).scIdx = s.scIdx := rfl
@[simp] theorem latchConfiguration_scY (m : Strategy) (f : SizeFields) (s : State) : (latchConfiguration m f s).scY = s.scY := rfl
@[simp] theorem latchConfiguration_pht (m : Strategy) (f : SizeFields) (s : State) : (latchConfiguration m f s).pht = s.pht := rfl
@[simp] theorem latchConfiguration_lht (m : Strategy) (f : SizeFields) (s : State) : (latchConfiguration m f s).lht = s.lht := rfl
@[simp] theorem latchConfiguration_lpt (m : Strategy) (f : SizeFields) (s : State) : (latchConfiguration m f s).lpt = s.lpt := rfl
@[simp] theorem latchConfiguration_ch (m : Strategy) (f : SizeFields) (s : State) : (latchConfiguration m f s).ch = s.ch := rfl
@[simp] theorem latchConfiguration_w (m : Strategy) (f : SizeFields) (s : State) : (latchConfiguration m f s).w = s.w := rfl
@[simp] theorem latchConfiguration_b (m : Strategy) (f : SizeFields) (s : State) : (latchConfiguration m f s).b = s.b := rfl
@[simp] theorem latchConfiguration_rspTaken (m : Strategy) (f : SizeFields) (s : State) : (latchConfiguration m f s).rspTaken = s.rspTaken := rfl
@[simp] theorem latchConfiguration_rspStatus (m : Strategy) (f : SizeFields) (s : State) : (latchConfiguration m f s).rspStatus = s.rspStatus := rfl
@[simp] theorem latchConfiguration_cmds (m : Strategy) (f : SizeFields) (s : State) : (latchConfiguration m f s).cmds = s.cmds := rfl
@[simp] theorem latchConfiguration_build (m : Strategy) (f : SizeFields) (s : State) : (latchConfiguration m f s).build = s.build := rfl

@[simp] theorem initGlobal_configured (s : State) : (initGlobal s).configured = s.configured := rfl
@[simp] theorem initGlobal_fault (s : State) : (initGlobal s).fault = s.fault := rfl
@[simp] theorem initGlobal_cause (s : State) : (initGlobal s).cause = s.cause := rfl
@[simp] theorem initGlobal_strategy (s : State) : (initGlobal s).strategy = s.strategy := rfl
@[simp] theorem initGlobal_g (s : State) : (initGlobal s).g = s.g := rfl
@[simp] theorem initGlobal_l (s : State) : (initGlobal s).l = s.l := rfl
@[simp] theorem initGlobal_p (s : State) : (initGlobal s).p = s.p := rfl
@[simp] theorem initGlobal_np (s : State) : (initGlobal s).np = s.np := rfl
@[simp] theorem initGlobal_nw (s : State) : (initGlobal s).nw = s.nw := rfl
@[simp] theorem initGlobal_th (s : State) : (initGlobal s).th = s.th := rfl
@[simp] theorem initGlobal_ghr (s : State) : (initGlobal s).ghr = 0 := rfl
@[simp] theorem initGlobal_h (s : State) : (initGlobal s).h = s.h := rfl
@[simp] theorem initGlobal_scV (s : State) : (initGlobal s).scV = s.scV := rfl
@[simp] theorem initGlobal_scPc (s : State) : (initGlobal s).scPc = s.scPc := rfl
@[simp] theorem initGlobal_scIdx (s : State) : (initGlobal s).scIdx = s.scIdx := rfl
@[simp] theorem initGlobal_scY (s : State) : (initGlobal s).scY = s.scY := rfl
@[simp] theorem initGlobal_pht (s : State) : (initGlobal s).pht = [] := rfl
@[simp] theorem initGlobal_lht (s : State) : (initGlobal s).lht = s.lht := rfl
@[simp] theorem initGlobal_lpt (s : State) : (initGlobal s).lpt = s.lpt := rfl
@[simp] theorem initGlobal_ch (s : State) : (initGlobal s).ch = s.ch := rfl
@[simp] theorem initGlobal_w (s : State) : (initGlobal s).w = s.w := rfl
@[simp] theorem initGlobal_b (s : State) : (initGlobal s).b = s.b := rfl
@[simp] theorem initGlobal_rspTaken (s : State) : (initGlobal s).rspTaken = s.rspTaken := rfl
@[simp] theorem initGlobal_rspStatus (s : State) : (initGlobal s).rspStatus = s.rspStatus := rfl
@[simp] theorem initGlobal_cmds (s : State) : (initGlobal s).cmds = s.cmds := rfl
@[simp] theorem initGlobal_build (s : State) : (initGlobal s).build = s.build := rfl

@[simp] theorem initLocal_configured (s : State) : (initLocal s).configured = s.configured := rfl
@[simp] theorem initLocal_fault (s : State) : (initLocal s).fault = s.fault := rfl
@[simp] theorem initLocal_cause (s : State) : (initLocal s).cause = s.cause := rfl
@[simp] theorem initLocal_strategy (s : State) : (initLocal s).strategy = s.strategy := rfl
@[simp] theorem initLocal_g (s : State) : (initLocal s).g = s.g := rfl
@[simp] theorem initLocal_l (s : State) : (initLocal s).l = s.l := rfl
@[simp] theorem initLocal_p (s : State) : (initLocal s).p = s.p := rfl
@[simp] theorem initLocal_np (s : State) : (initLocal s).np = s.np := rfl
@[simp] theorem initLocal_nw (s : State) : (initLocal s).nw = s.nw := rfl
@[simp] theorem initLocal_th (s : State) : (initLocal s).th = s.th := rfl
@[simp] theorem initLocal_ghr (s : State) : (initLocal s).ghr = s.ghr := rfl
@[simp] theorem initLocal_h (s : State) : (initLocal s).h = s.h := rfl
@[simp] theorem initLocal_scV (s : State) : (initLocal s).scV = s.scV := rfl
@[simp] theorem initLocal_scPc (s : State) : (initLocal s).scPc = s.scPc := rfl
@[simp] theorem initLocal_scIdx (s : State) : (initLocal s).scIdx = s.scIdx := rfl
@[simp] theorem initLocal_scY (s : State) : (initLocal s).scY = s.scY := rfl
@[simp] theorem initLocal_pht (s : State) : (initLocal s).pht = s.pht := rfl
@[simp] theorem initLocal_lht (s : State) : (initLocal s).lht = [] := rfl
@[simp] theorem initLocal_lpt (s : State) : (initLocal s).lpt = [] := rfl
@[simp] theorem initLocal_ch (s : State) : (initLocal s).ch = s.ch := rfl
@[simp] theorem initLocal_w (s : State) : (initLocal s).w = s.w := rfl
@[simp] theorem initLocal_b (s : State) : (initLocal s).b = s.b := rfl
@[simp] theorem initLocal_rspTaken (s : State) : (initLocal s).rspTaken = s.rspTaken := rfl
@[simp] theorem initLocal_rspStatus (s : State) : (initLocal s).rspStatus = s.rspStatus := rfl
@[simp] theorem initLocal_cmds (s : State) : (initLocal s).cmds = s.cmds := rfl
@[simp] theorem initLocal_build (s : State) : (initLocal s).build = s.build := rfl

@[simp] theorem initChooser_configured (s : State) : (initChooser s).configured = s.configured := rfl
@[simp] theorem initChooser_fault (s : State) : (initChooser s).fault = s.fault := rfl
@[simp] theorem initChooser_cause (s : State) : (initChooser s).cause = s.cause := rfl
@[simp] theorem initChooser_strategy (s : State) : (initChooser s).strategy = s.strategy := rfl
@[simp] theorem initChooser_g (s : State) : (initChooser s).g = s.g := rfl
@[simp] theorem initChooser_l (s : State) : (initChooser s).l = s.l := rfl
@[simp] theorem initChooser_p (s : State) : (initChooser s).p = s.p := rfl
@[simp] theorem initChooser_np (s : State) : (initChooser s).np = s.np := rfl
@[simp] theorem initChooser_nw (s : State) : (initChooser s).nw = s.nw := rfl
@[simp] theorem initChooser_th (s : State) : (initChooser s).th = s.th := rfl
@[simp] theorem initChooser_ghr (s : State) : (initChooser s).ghr = s.ghr := rfl
@[simp] theorem initChooser_h (s : State) : (initChooser s).h = s.h := rfl
@[simp] theorem initChooser_scV (s : State) : (initChooser s).scV = s.scV := rfl
@[simp] theorem initChooser_scPc (s : State) : (initChooser s).scPc = s.scPc := rfl
@[simp] theorem initChooser_scIdx (s : State) : (initChooser s).scIdx = s.scIdx := rfl
@[simp] theorem initChooser_scY (s : State) : (initChooser s).scY = s.scY := rfl
@[simp] theorem initChooser_pht (s : State) : (initChooser s).pht = s.pht := rfl
@[simp] theorem initChooser_lht (s : State) : (initChooser s).lht = s.lht := rfl
@[simp] theorem initChooser_lpt (s : State) : (initChooser s).lpt = s.lpt := rfl
@[simp] theorem initChooser_ch (s : State) : (initChooser s).ch = [] := rfl
@[simp] theorem initChooser_w (s : State) : (initChooser s).w = s.w := rfl
@[simp] theorem initChooser_b (s : State) : (initChooser s).b = s.b := rfl
@[simp] theorem initChooser_rspTaken (s : State) : (initChooser s).rspTaken = s.rspTaken := rfl
@[simp] theorem initChooser_rspStatus (s : State) : (initChooser s).rspStatus = s.rspStatus := rfl
@[simp] theorem initChooser_cmds (s : State) : (initChooser s).cmds = s.cmds := rfl
@[simp] theorem initChooser_build (s : State) : (initChooser s).build = s.build := rfl

@[simp] theorem initPerceptron_configured (s : State) : (initPerceptron s).configured = s.configured := rfl
@[simp] theorem initPerceptron_fault (s : State) : (initPerceptron s).fault = s.fault := rfl
@[simp] theorem initPerceptron_cause (s : State) : (initPerceptron s).cause = s.cause := rfl
@[simp] theorem initPerceptron_strategy (s : State) : (initPerceptron s).strategy = s.strategy := rfl
@[simp] theorem initPerceptron_g (s : State) : (initPerceptron s).g = s.g := rfl
@[simp] theorem initPerceptron_l (s : State) : (initPerceptron s).l = s.l := rfl
@[simp] theorem initPerceptron_p (s : State) : (initPerceptron s).p = s.p := rfl
@[simp] theorem initPerceptron_np (s : State) : (initPerceptron s).np = s.np := rfl
@[simp] theorem initPerceptron_nw (s : State) : (initPerceptron s).nw = s.nw := rfl
@[simp] theorem initPerceptron_th (s : State) : (initPerceptron s).th = s.th := rfl
@[simp] theorem initPerceptron_ghr (s : State) : (initPerceptron s).ghr = s.ghr := rfl
@[simp] theorem initPerceptron_h (s : State) : (initPerceptron s).h = 0 := rfl
@[simp] theorem initPerceptron_scV (s : State) : (initPerceptron s).scV = false := rfl
@[simp] theorem initPerceptron_scPc (s : State) : (initPerceptron s).scPc = s.scPc := rfl
@[simp] theorem initPerceptron_scIdx (s : State) : (initPerceptron s).scIdx = s.scIdx := rfl
@[simp] theorem initPerceptron_scY (s : State) : (initPerceptron s).scY = s.scY := rfl
@[simp] theorem initPerceptron_pht (s : State) : (initPerceptron s).pht = s.pht := rfl
@[simp] theorem initPerceptron_lht (s : State) : (initPerceptron s).lht = s.lht := rfl
@[simp] theorem initPerceptron_lpt (s : State) : (initPerceptron s).lpt = s.lpt := rfl
@[simp] theorem initPerceptron_ch (s : State) : (initPerceptron s).ch = s.ch := rfl
@[simp] theorem initPerceptron_w (s : State) : (initPerceptron s).w = [] := rfl
@[simp] theorem initPerceptron_b (s : State) : (initPerceptron s).b = [] := rfl
@[simp] theorem initPerceptron_rspTaken (s : State) : (initPerceptron s).rspTaken = s.rspTaken := rfl
@[simp] theorem initPerceptron_rspStatus (s : State) : (initPerceptron s).rspStatus = s.rspStatus := rfl
@[simp] theorem initPerceptron_cmds (s : State) : (initPerceptron s).cmds = s.cmds := rfl
@[simp] theorem initPerceptron_build (s : State) : (initPerceptron s).build = s.build := rfl

end Sys2Proof.Machine
end

