-- ==== Sys2Proof/Laws/Table.lean ====
section
/-! SUPPORT. The laws of table access: a read after a write, the canonical form, and the index range. -/

namespace Sys2Proof.Machine

variable {α : Type}

@[simp] theorem Table.read_nil (d : α) (i : Nat) : Table.read d ([] : Table α) i = d := rfl

theorem Table.read_cons (d : α) (k : Nat) (v : α) (t : Table α) (i : Nat) :
    Table.read d ((k, v) :: t) i = if i = k then v else Table.read d t i := rfl

/-- An index that is not listed reads as the reset value. -/
theorem Table.read_of_unlisted (d : α) (t : Table α) (i : Nat) (h : ∀ e ∈ t, e.1 ≠ i) :
    Table.read d t i = d := by
  induction t with
  | nil => rfl
  | cons e t ih =>
    obtain ⟨k, v⟩ := e
    rw [Table.read_cons, if_neg (fun hk => h (k, v) (by simp) hk.symm)]
    exact ih fun e he => h e (by simp [he])

/-- A read gives the reset value or a listed entry. -/
theorem Table.read_mem (d : α) (t : Table α) (i : Nat) :
    Table.read d t i = d ∨ (i, Table.read d t i) ∈ t := by
  induction t with
  | nil => exact .inl rfl
  | cons e t ih =>
    obtain ⟨k, v⟩ := e
    rw [Table.read_cons]
    split
    · next hk => exact .inr (by simp [hk])
    · exact ih.imp id fun hm => List.mem_cons_of_mem _ hm

section
variable [DecidableEq α]

theorem Table.wf_cons (d : α) (k : Nat) (v : α) (t : Table α) :
    Table.wf d ((k, v) :: t) = true ↔
      v ≠ d ∧ (∀ e ∈ t, k < e.1) ∧ Table.wf d t = true := by
  simp [Table.wf, and_assoc]

/-- Every entry after a write is the written one or one of before. -/
theorem Table.mem_write (d : α) (t : Table α) (i : Nat) (v : α) :
    ∀ e ∈ Table.write d t i v, e = (i, v) ∨ e ∈ t := by
  induction t with
  | nil => intro e; simp only [Table.write]; split <;> simp
  | cons x t ih =>
    obtain ⟨k, u⟩ := x
    intro e
    simp only [Table.write]
    split
    · split
      · exact fun he => .inr he
      · simp
    · split
      · next hk =>
        subst hk
        split
        · intro he; exact .inr (List.mem_cons_of_mem _ he)
        · simp only [List.mem_cons]
          exact fun he => he.imp id .inr
      · simp only [List.mem_cons]
        rintro (he | he)
        · exact .inr (.inl he)
        · exact (ih e he).imp id .inr

/-- A write keeps the canonical form. -/
theorem Table.wf_write (d : α) (t : Table α) (i : Nat) (v : α) (h : Table.wf d t = true) :
    Table.wf d (Table.write d t i v) = true := by
  induction t with
  | nil =>
    simp only [Table.write]
    split
    · rfl
    · next hv => simp [Table.wf, hv]
  | cons e t ih =>
    obtain ⟨k, u⟩ := e
    obtain ⟨hu, hk, ht⟩ := (Table.wf_cons d k u t).1 h
    simp only [Table.write]
    split
    · next hi =>
      split
      · exact h
      · next hv =>
        refine (Table.wf_cons _ _ _ _).2 ⟨hv, ?_, h⟩
        simp only [List.mem_cons, forall_eq_or_imp]
        exact ⟨hi, fun e he => Nat.lt_trans hi (hk e he)⟩
    · split
      · split
        · exact ht
        · next hv => exact (Table.wf_cons _ _ _ _).2 ⟨hv, hk, ht⟩
      · next hi hne =>
        refine (Table.wf_cons _ _ _ _).2 ⟨hu, fun e he => ?_, ih ht⟩
        rcases Table.mem_write d t i v e he with rfl | he'
        · change k < i; omega
        · exact hk e he'

/-- A read after a write gives the written entry at its index and the old entry everywhere else. -/
theorem Table.read_write (d : α) (t : Table α) (i : Nat) (v : α) (j : Nat)
    (h : Table.wf d t = true) :
    Table.read d (Table.write d t i v) j = if j = i then v else Table.read d t j := by
  induction t with
  | nil =>
    simp only [Table.write]
    split
    · next hv => simp [hv]
    · rfl
  | cons e t ih =>
    obtain ⟨k, u⟩ := e
    obtain ⟨hu, hk, ht⟩ := (Table.wf_cons d k u t).1 h
    have unlisted : ∀ m, m ≤ k → Table.read d t m = d := fun m hm =>
      Table.read_of_unlisted d t m fun e he => by have := hk e he; omega
    simp only [Table.write]
    split
    · next hi =>
      split
      · next hv =>
        split
        · next hj =>
          subst hj
          rw [Table.read_cons, if_neg (by omega), unlisted j (by omega), hv]
        · rfl
      · rfl
    · split
      · next hik =>
        subst hik
        split
        · next hv =>
          split
          · next hj => rw [hj, unlisted i (Nat.le_refl _), hv]
          · next hj => rw [Table.read_cons, if_neg hj]
        · simp only [Table.read_cons]
          split <;> rfl
      · next hi hne =>
        simp only [Table.read_cons, ih ht]
        split
        · next hj => rw [if_neg (by omega)]
        · rfl

end

theorem Table.below_iff (n : Nat) (t : Table α) :
    Table.below n t = true ↔ ∀ e ∈ t, e.1 < n := by simp [Table.below]

/-- A write at an index of the table keeps every index in range. -/
theorem Table.below_write [DecidableEq α] (d : α) (n : Nat) (t : Table α) (i : Nat) (v : α)
    (h : Table.below n t = true) (hi : i < n) : Table.below n (Table.write d t i v) = true := by
  rw [Table.below_iff] at h ⊢
  intro e he
  rcases Table.mem_write d t i v e he with rfl | he
  · exact hi
  · exact h e he

@[simp] theorem Table.below_nil (n : Nat) : Table.below n ([] : Table α) = true := rfl

end Sys2Proof.Machine
end

