-- ==== Sys2Proof/Laws/Ops.lean ====
section
/-! SUPPORT. What each shared operation can do: the checks before a command, table reads after table
writes, the index ranges, and the canonical form of memory. -/

namespace Sys2Proof.Machine

/-! ## The checks before a command -/

/-- Everything `underStrategy` can do (60_exceptions.md R239, R243). -/
theorem underStrategy_cases (m : Strategy) (s k : State) :
    (s.fault = true ∧ underStrategy m s k = .next (answerFaulted s)) ∨
    (s.fault = false ∧ s.configured = false ∧ underStrategy m s k = .next (raise .notConfigured s)) ∨
    (s.fault = false ∧ s.configured = true ∧ s.strategy = m ∧ underStrategy m s k = .next k) ∨
    (s.fault = false ∧ s.configured = true ∧ s.strategy ≠ m ∧
      underStrategy m s k = .fault .wrongStrategy) := by
  unfold underStrategy
  cases s.fault <;> cases s.configured <;> simp
  by_cases h : s.strategy = m <;> simp [h]

theorem underStrategy_faulted (m : Strategy) (s k : State) (h : s.fault = true) :
    underStrategy m s k = .next (answerFaulted s) := by simp [underStrategy, h]

theorem underStrategy_unconfigured (m : Strategy) (s k : State) (hf : s.fault = false)
    (hc : s.configured = false) : underStrategy m s k = .next (raise .notConfigured s) := by
  simp [underStrategy, hf, hc]

theorem underStrategy_running (m : Strategy) (s k : State) (hf : s.fault = false)
    (hc : s.configured = true) (hm : s.strategy = m) : underStrategy m s k = .next k := by
  simp [underStrategy, hf, hc, hm]

/-- Everything `underConfigure` can do (60_exceptions.md R239, R243). -/
theorem underConfigure_cases (s k : State) :
    (s.fault = true ∧ underConfigure s k = answerFaulted s) ∨
    (s.fault = false ∧ s.configured = true ∧ underConfigure s k = raise .reconfigure s) ∨
    (s.fault = false ∧ s.configured = false ∧ underConfigure s k = k) := by
  unfold underConfigure
  cases s.fault <;> cases s.configured <;> simp

/-! ## The command port -/

@[simp] theorem takeCommand_present (w : Word) (s : State) :
    takeCommand (presentCommand w s) = some (w, s) := rfl

theorem takeCommand_cons (s : State) (w : Word) (rest : List Word) (h : s.cmds = w :: rest) :
    takeCommand s = some (w, { s with cmds := rest }) := by simp [takeCommand, h]

theorem takeCommand_nil (s : State) (h : s.cmds = []) : takeCommand s = none := by
  simp [takeCommand, h]

/-! ## Index ranges (20_memory.md R62) -/

theorem gidx_lt (pc : Pc) (s : State) : gidx pc s < 2 ^ s.g.toNat := by
  rw [gidx, toNat_and_mask]; exact Nat.mod_lt _ (Nat.two_pow_pos _)

theorem aidx_lt (pc : Pc) (s : State) : aidx pc s < 2 ^ s.p.toNat := by
  rw [aidx, toNat_and_mask]; exact Nat.mod_lt _ (Nat.two_pow_pos _)

theorem cidx_lt (pc : Pc) (s : State) : cidx pc s < 2 ^ s.p.toNat := by
  rw [cidx, toNat_and_mask]; exact Nat.mod_lt _ (Nat.two_pow_pos _)

theorem hidx_lt (pc : Pc) (s : State) : hidx pc s < 2 ^ s.l.toNat := by
  rw [hidx, toNat_and_mask]; exact Nat.mod_lt _ (Nat.two_pow_pos _)

theorem pidx_lt (pc : Pc) (s : State) (h : 1 ≤ s.np.toNat) : (pidx pc s).toNat < s.np.toNat := by
  rw [pidx, BitVec.toNat_and]
  have h1 : (s.np - 1).toNat = s.np.toNat - 1 := by bv_omega
  have h2 : (pc.setWidth 14).toNat &&& (s.np - 1).toNat ≤ (s.np - 1).toNat := Nat.and_le_right
  omega

/-- Two elements of W have equal indices only when they are the same element. -/
theorem weightIndex_inj {p i q j : Nat} (hi : i < 256) (hj : j < 256) :
    weightIndex p i = weightIndex q j ↔ p = q ∧ i = j := by
  unfold weightIndex; omega

/-! ## The canonical form of memory -/

/-- The canonical form, table by table. -/
theorem Memory.wf_iff (s : State) :
    Memory.wf s = true ↔
      Table.wf Config.ctrInit s.pht = true ∧ Table.wf 0 s.lht = true ∧
      Table.wf Config.ctrInit s.lpt = true ∧ Table.wf s.build.chooserInit s.ch = true ∧
      Table.wf 0 s.w = true ∧ Table.wf 0 s.b = true := by
  simp [Memory.wf, and_assoc]

theorem Memory.wf_reset : Memory.wf State.reset = true := by decide

@[simp] theorem Memory.wf_respond (c : Status) (t : Bool) (s : State) :
    Memory.wf (respond c t s) = Memory.wf s := rfl
@[simp] theorem Memory.wf_raise (c : Cause) (s : State) : Memory.wf (raise c s) = Memory.wf s := rfl
@[simp] theorem Memory.wf_powerOn (s : State) : Memory.wf (powerOn s) = Memory.wf s := rfl
@[simp] theorem Memory.wf_presentCommand (w : Word) (s : State) :
    Memory.wf (presentCommand w s) = Memory.wf s := rfl
@[simp] theorem Memory.wf_shiftGhr (o : Bool) (s : State) :
    Memory.wf (shiftGhr o s) = Memory.wf s := rfl
@[simp] theorem Memory.wf_shiftH (o : Bool) (s : State) :
    Memory.wf (shiftH o s) = Memory.wf s := rfl
@[simp] theorem Memory.wf_recordScratch (pc : Pc) (s : State) :
    Memory.wf (recordScratch pc s) = Memory.wf s := rfl
@[simp] theorem Memory.wf_latchConfiguration (m : Strategy) (f : SizeFields) (s : State) :
    Memory.wf (latchConfiguration m f s) = Memory.wf s := rfl

theorem Memory.wf_writePht {s : State} (i : Nat) (v : Counter) (h : Memory.wf s = true) :
    Memory.wf (writePht i v s) = true := by
  rw [Memory.wf_iff] at h ⊢; exact ⟨Table.wf_write _ _ _ _ h.1, h.2⟩

theorem Memory.wf_writeLht {s : State} (i : Nat) (v : Hist) (h : Memory.wf s = true) :
    Memory.wf (writeLht i v s) = true := by
  rw [Memory.wf_iff] at h ⊢; exact ⟨h.1, Table.wf_write _ _ _ _ h.2.1, h.2.2⟩

theorem Memory.wf_writeLpt {s : State} (i : Nat) (v : Counter) (h : Memory.wf s = true) :
    Memory.wf (writeLpt i v s) = true := by
  rw [Memory.wf_iff] at h ⊢; exact ⟨h.1, h.2.1, Table.wf_write _ _ _ _ h.2.2.1, h.2.2.2⟩

theorem Memory.wf_writeCh {s : State} (i : Nat) (v : Counter) (h : Memory.wf s = true) :
    Memory.wf (writeCh i v s) = true := by
  rw [Memory.wf_iff] at h ⊢
  exact ⟨h.1, h.2.1, h.2.2.1, Table.wf_write _ _ _ _ h.2.2.2.1, h.2.2.2.2⟩

theorem Memory.wf_writeB {s : State} (i : Nat) (v : Weight) (h : Memory.wf s = true) :
    Memory.wf (writeB i v s) = true := by
  rw [Memory.wf_iff] at h ⊢
  exact ⟨h.1, h.2.1, h.2.2.1, h.2.2.2.1, h.2.2.2.2.1, Table.wf_write _ _ _ _ h.2.2.2.2.2⟩

theorem Table.wf_trainRow (p : Nat) (h : FeatureHist) (o : Bool) (n : Nat) (t : Table Weight)
    (ht : Table.wf 0 t = true) : Table.wf 0 (trainRow p h o n t) = true := by
  induction n with
  | zero => exact ht
  | succ n ih => exact Table.wf_write _ _ _ _ ih

theorem Memory.wf_trainWeights {s : State} (o : Bool) (h : Memory.wf s = true) :
    Memory.wf (trainWeights o s) = true := by
  refine Memory.wf_writeB _ _ ?_
  rw [Memory.wf_iff] at h ⊢
  exact ⟨h.1, h.2.1, h.2.2.1, h.2.2.2.1, Table.wf_trainRow _ _ _ _ _ h.2.2.2.2.1, h.2.2.2.2.2⟩

theorem Memory.wf_initGlobal {s : State} (h : Memory.wf s = true) :
    Memory.wf (initGlobal s) = true := by
  rw [Memory.wf_iff] at h ⊢; exact ⟨rfl, h.2⟩

theorem Memory.wf_initLocal {s : State} (h : Memory.wf s = true) :
    Memory.wf (initLocal s) = true := by
  rw [Memory.wf_iff] at h ⊢; exact ⟨h.1, rfl, rfl, h.2.2.2⟩

theorem Memory.wf_initChooser {s : State} (h : Memory.wf s = true) :
    Memory.wf (initChooser s) = true := by
  rw [Memory.wf_iff] at h ⊢; exact ⟨h.1, h.2.1, h.2.2.1, rfl, h.2.2.2.2⟩

theorem Memory.wf_initPerceptron {s : State} (h : Memory.wf s = true) :
    Memory.wf (initPerceptron s) = true := by
  rw [Memory.wf_iff] at h ⊢; exact ⟨h.1, h.2.1, h.2.2.1, h.2.2.2.1, rfl, rfl⟩

/-! ## Reads after writes -/

theorem readPht_writePht {s : State} (i : Nat) (v : Counter) (j : Nat) (h : Memory.wf s = true) :
    readPht (writePht i v s) j = if j = i then v else readPht s j :=
  Table.read_write _ _ _ _ _ ((Memory.wf_iff s).1 h).1

theorem readLht_writeLht {s : State} (i : Nat) (v : Hist) (j : Nat) (h : Memory.wf s = true) :
    readLht (writeLht i v s) j = if j = i then v else readLht s j :=
  Table.read_write _ _ _ _ _ ((Memory.wf_iff s).1 h).2.1

theorem readLpt_writeLpt {s : State} (i : Nat) (v : Counter) (j : Nat) (h : Memory.wf s = true) :
    readLpt (writeLpt i v s) j = if j = i then v else readLpt s j :=
  Table.read_write _ _ _ _ _ ((Memory.wf_iff s).1 h).2.2.1

theorem readCh_writeCh {s : State} (i : Nat) (v : Counter) (j : Nat) (h : Memory.wf s = true) :
    readCh (writeCh i v s) j = if j = i then v else readCh s j :=
  Table.read_write _ _ _ _ _ ((Memory.wf_iff s).1 h).2.2.2.1

theorem readB_writeB {s : State} (i : Nat) (v : Weight) (j : Nat) (h : Memory.wf s = true) :
    readB (writeB i v s) j = if j = i then v else readB s j :=
  Table.read_write _ _ _ _ _ ((Memory.wf_iff s).1 h).2.2.2.2.2

/-- The whole weight array after training the first `n` elements of row `p` (45_perceptron.md R181). -/
theorem read_trainRow (p : Nat) (h : FeatureHist) (o : Bool) (n : Nat) (hn : n ≤ 256)
    (t : Table Weight) (ht : Table.wf 0 t = true) (q j : Nat) (hj : j < 256) :
    Table.read 0 (trainRow p h o n t) (weightIndex q j) =
      if q = p ∧ j < n then
        trainedWeight (Table.read 0 t (weightIndex q j)) (h.getLsbD j) o
      else Table.read 0 t (weightIndex q j) := by
  induction n with
  | zero => simp [trainRow]
  | succ n ih =>
    have ihn := ih (by omega)
    rw [trainRow, Table.read_write _ _ _ _ _ (Table.wf_trainRow p h o n t ht)]
    by_cases he : weightIndex q j = weightIndex p n
    · obtain ⟨rfl, rfl⟩ := (weightIndex_inj hj (by omega)).1 he
      rw [if_pos rfl, ihn, if_neg (by omega), if_pos ⟨rfl, by omega⟩]
    · have hne : ¬ (q = p ∧ j = n) := fun ⟨hq, hjn⟩ => he (by rw [hq, hjn])
      rw [if_neg he, ihn]
      by_cases hq : q = p ∧ j < n
      · rw [if_pos hq, if_pos ⟨hq.1, by omega⟩]
      · rw [if_neg hq, if_neg (by omega)]

end Sys2Proof.Machine
end

