-- ==== Sys2Proof/Laws/Families.lean ====
section
/-! SUPPORT. One lemma per training function: the whole state it leaves, and every table entry after it. -/

namespace Sys2Proof.Machine

/-! ## Global and Local -/

/-- Everything Global.train writes (42_gshare.md R132). -/
theorem globalTrain_eq (pc : Pc) (o : Bool) (s : State) :
    globalTrain pc o s =
      { s with
        pht := Table.write Config.ctrInit s.pht (gidx pc s) (upd2 (readPht s (gidx pc s)) o)
        ghr := shin s.ghr o s.g.toNat } := rfl

/-- Everything Local.train writes (43_local.md R148). -/
theorem localTrain_eq (pc : Pc) (o : Bool) (s : State) :
    localTrain pc o s =
      { s with
        lpt := Table.write Config.ctrInit s.lpt (hidx pc s) (upd2 (readLpt s (hidx pc s)) o)
        lht := Table.write 0 s.lht (aidx pc s) (shin (readLht s (aidx pc s)) o s.l.toNat) } := rfl

theorem readPht_globalTrain (pc : Pc) (o : Bool) {s : State} (h : Memory.wf s = true) (j : Nat) :
    readPht (globalTrain pc o s) j =
      if j = gidx pc s then upd2 (readPht s (gidx pc s)) o else readPht s j :=
  readPht_writePht _ _ j h

theorem readLpt_localTrain (pc : Pc) (o : Bool) {s : State} (h : Memory.wf s = true) (j : Nat) :
    readLpt (localTrain pc o s) j =
      if j = hidx pc s then upd2 (readLpt s (hidx pc s)) o else readLpt s j :=
  readLpt_writeLpt _ _ j h

theorem readLht_localTrain (pc : Pc) (o : Bool) {s : State} (h : Memory.wf s = true) (j : Nat) :
    readLht (localTrain pc o s) j =
      if j = aidx pc s then shin (readLht s (aidx pc s)) o s.l.toNat else readLht s j :=
  readLht_writeLht (s := writeLpt _ _ s) _ _ j (Memory.wf_writeLpt _ _ h)

theorem Memory.wf_globalTrain (pc : Pc) (o : Bool) {s : State} (h : Memory.wf s = true) :
    Memory.wf (globalTrain pc o s) = true := Memory.wf_writePht _ _ h

theorem Memory.wf_localTrain (pc : Pc) (o : Bool) {s : State} (h : Memory.wf s = true) :
    Memory.wf (localTrain pc o s) = true := Memory.wf_writeLht _ _ (Memory.wf_writeLpt _ _ h)

/-! ## The Arbiter -/

/-- The chooser update writes CH and nothing else. -/
theorem chooserTrain_eq (pc : Pc) (o : Bool) (s : State) :
    chooserTrain pc o s = { s with ch := (chooserTrain pc o s).ch } := by
  simp only [chooserTrain]
  split
  · rfl
  · split <;> rfl

/-- When the two predictions agree the chooser is left unchanged (44_tournament.md R165). -/
theorem chooserTrain_of_agree (pc : Pc) (o : Bool) (s : State)
    (h : globalPredict pc s = localPredict pc s) : chooserTrain pc o s = s := by
  simp [chooserTrain, h]

/-- When they disagree the entry moves toward the one that equals the outcome (44_tournament.md R165). -/
theorem chooserTrain_of_disagree (pc : Pc) (o : Bool) (s : State)
    (h : globalPredict pc s ≠ localPredict pc s) :
    chooserTrain pc o s =
      writeCh (cidx pc s)
        (if globalPredict pc s = o then inc2 (readCh s (cidx pc s))
          else dec2 (readCh s (cidx pc s))) s := by
  revert h
  simp only [chooserTrain]
  cases globalPredict pc s <;> cases localPredict pc s <;> cases o <;> simp

theorem Memory.wf_chooserTrain (pc : Pc) (o : Bool) {s : State} (h : Memory.wf s = true) :
    Memory.wf (chooserTrain pc o s) = true := by
  by_cases hd : globalPredict pc s = localPredict pc s
  · rw [chooserTrain_of_agree pc o s hd]; exact h
  · rw [chooserTrain_of_disagree pc o s hd]; exact Memory.wf_writeCh _ _ h

/-- Everything Arbiter.train writes: the three parts, each from the state of before
(44_tournament.md R163, R167). -/
theorem arbiterTrain_eq (pc : Pc) (o : Bool) (s : State) :
    arbiterTrain pc o s =
      { s with
        ch := (chooserTrain pc o s).ch
        pht := (globalTrain pc o s).pht, ghr := (globalTrain pc o s).ghr
        lpt := (localTrain pc o s).lpt, lht := (localTrain pc o s).lht } := by
  rw [arbiterTrain, chooserTrain_eq]; rfl

theorem Memory.wf_arbiterTrain (pc : Pc) (o : Bool) {s : State} (h : Memory.wf s = true) :
    Memory.wf (arbiterTrain pc o s) = true :=
  Memory.wf_localTrain _ _ (Memory.wf_globalTrain _ _ (Memory.wf_chooserTrain _ _ h))

/-! ## The perceptron -/

/-- The feature sum as one sum (45_perceptron.md R178). -/
theorem featureSum_eq_sum (h : FeatureHist) (w : Table Weight) (p n : Nat) :
    featureSum h w p n =
      ∑ i ∈ Finset.range n,
        (if h.getLsbD i then (Table.read 0 w (weightIndex p i)).toInt
          else -(Table.read 0 w (weightIndex p i)).toInt) := by
  induction n with
  | zero => rfl
  | succ n ih => rw [Finset.sum_range_succ, ← ih]; rfl

/-- The bounds of the feature sum (45_perceptron.md R178). -/
theorem featureSum_bounds (h : FeatureHist) (w : Table Weight) (p n : Nat) :
    -128 * (n : Int) ≤ featureSum h w p n ∧ featureSum h w p n ≤ 128 * (n : Int) := by
  induction n with
  | zero => simp [featureSum]
  | succ n ih =>
    have h1 := BitVec.toInt_lt (x := Table.read 0 w (weightIndex p n))
    have h2 := BitVec.le_toInt (x := Table.read 0 w (weightIndex p n))
    have e : featureSum h w p (n + 1) = featureSum h w p n +
        (if h.getLsbD n then (Table.read 0 w (weightIndex p n)).toInt
          else -(Table.read 0 w (weightIndex p n)).toInt) := rfl
    rw [e]
    generalize (Table.read 0 w (weightIndex p n)).toInt = v at h1 h2 ⊢
    split <;> push_cast <;> omega

/-- Everything a paired TRAIN.CUSTOM writes (45_perceptron.md R184). -/
theorem perceptronTrain_eq (o : Bool) (s : State) :
    perceptronTrain o s =
      { s with
        w := if trainingNeeded s.scY o s.th then
            trainRow s.scIdx.toNat s.h o s.nw.toNat s.w else s.w
        b := if trainingNeeded s.scY o s.th then
            Table.write 0 s.b s.scIdx.toNat (trainedBias (readB s s.scIdx.toNat) o) else s.b
        h := shin s.h o s.nw.toNat
        scV := false } := by
  simp only [perceptronTrain]
  split <;> rfl

theorem Memory.wf_perceptronTrain (o : Bool) {s : State} (h : Memory.wf s = true) :
    Memory.wf (perceptronTrain o s) = true := by
  have key : ∀ s' : State, Memory.wf s' = true →
      Memory.wf { shiftH o s' with scV := false } = true := fun _ h => h
  simp only [perceptronTrain]
  split
  · exact key _ (Memory.wf_trainWeights o h)
  · exact key _ h

/-- The trained weight in integers: one step, clamped (45_perceptron.md R181). -/
theorem toInt_trainedWeight (v : Weight) (bit o : Bool) :
    (trainedWeight v bit o).toInt =
      max (-128) (min 127 (v.toInt + if bit = o then 1 else -1)) := by
  rw [trainedWeight, toInt_clamp8]
  cases bit <;> cases o <;> simp [sgn]

/-- The trained bias in integers: one step, clamped (45_perceptron.md R182). -/
theorem toInt_trainedBias (v : Weight) (o : Bool) :
    (trainedBias v o).toInt = max (-128) (min 127 (v.toInt + if o then 1 else -1)) := by
  rw [trainedBias, toInt_clamp8]; cases o <;> simp [sgn]

end Sys2Proof.Machine
end

