-- ==== Sys2Proof/Laws/Exec.lean ====
section
/-! SUPPORT. What one operation and one step can do, said once: the inversion lemmas of `exec` and
`step`. -/

namespace Sys2Proof.Machine

/-- The state an operation leaves when it is performed (60_exceptions.md R239, step 6). -/
def performed (i : Instr) (s : State) : State :=
  match i with
  | .configureStatic f => respond 0 false (latchConfiguration .static f s)
  | .configureGshare f => respond 0 false (latchConfiguration .gshare f (initGlobal s))
  | .configureLocal f => respond 0 false (latchConfiguration .localHist f (initLocal s))
  | .configureTournament f =>
    respond 0 false (latchConfiguration .tournament f (initChooser (initLocal (initGlobal s))))
  | .configureCustom f => respond 0 false (latchConfiguration .custom f (initPerceptron s))
  | .predictStatic _ => respond 0 s.build.staticDir s
  | .predictGshare pc => respond 0 (globalPredict pc s) s
  | .predictLocal pc => respond 0 (localPredict pc s) s
  | .predictTournament pc => respond 0 (arbiterPredict pc s) s
  | .predictCustom pc =>
    respond 0 (perceptronTaken (ysum s (pidx pc s).toNat)) (recordScratch pc s)
  | .trainStatic _ _ => respond 0 false s
  | .trainGshare pc o => respond 0 false (globalTrain pc o s)
  | .trainLocal pc o => respond 0 false (localTrain pc o s)
  | .trainTournament pc o => respond 0 false (arbiterTrain pc o s)
  | .trainCustom _ o => respond 0 false (perceptronTrain o s)

/-- The checks of 60_exceptions.md R239 that an operation passes when it is performed. -/
def Performable (i : Instr) (s : State) : Prop :=
  match i with
  | .configureStatic f => s.configured = false ∧ sizesLegal s.build .static f = true
  | .configureGshare f => s.configured = false ∧ sizesLegal s.build .gshare f = true
  | .configureLocal f => s.configured = false ∧ sizesLegal s.build .localHist f = true
  | .configureTournament f => s.configured = false ∧ sizesLegal s.build .tournament f = true
  | .configureCustom f => s.configured = false ∧ sizesLegal s.build .custom f = true
  | .predictStatic _ | .trainStatic _ _ => s.configured = true ∧ s.strategy = .static
  | .predictGshare _ | .trainGshare _ _ => s.configured = true ∧ s.strategy = .gshare
  | .predictLocal _ | .trainLocal _ _ => s.configured = true ∧ s.strategy = .localHist
  | .predictTournament _ | .trainTournament _ _ => s.configured = true ∧ s.strategy = .tournament
  | .predictCustom _ => s.configured = true ∧ s.strategy = .custom
  | .trainCustom pc _ => s.configured = true ∧ s.strategy = .custom ∧ paired pc s = true

/-- A performed operation leaves the driver's words, the build parameters, FAULT and CAUSE alone, and
completes with STATUS 0. -/
theorem performed_frame (i : Instr) (s : State) :
    (performed i s).cmds = s.cmds ∧ (performed i s).build = s.build ∧
    (performed i s).fault = s.fault ∧ (performed i s).cause = s.cause ∧
    (performed i s).rspStatus = 0 := by
  cases i <;> simp [performed, globalTrain_eq, localTrain_eq, arbiterTrain_eq, perceptronTrain_eq]

/-- A performed operation keeps the canonical form of memory. -/
theorem Memory.wf_performed (i : Instr) {s : State} (h : Memory.wf s = true) :
    Memory.wf (performed i s) = true := by
  cases i with
  | configureStatic f => exact h
  | configureGshare f => exact wf_initGlobal (s := s) h
  | configureLocal f => exact wf_initLocal (s := s) h
  | configureTournament f =>
    exact wf_initChooser (s := initLocal (initGlobal s))
      (wf_initLocal (s := initGlobal s) (wf_initGlobal h))
  | configureCustom f => exact wf_initPerceptron (s := s) h
  | predictStatic pc => exact h
  | predictGshare pc => exact h
  | predictLocal pc => exact h
  | predictTournament pc => exact h
  | predictCustom pc => exact h
  | trainStatic pc o => exact h
  | trainGshare pc o => exact wf_globalTrain pc o h
  | trainLocal pc o => exact wf_localTrain pc o h
  | trainTournament pc o => exact wf_arbiterTrain pc o h
  | trainCustom pc o => exact wf_perceptronTrain o h

/-- The CONFIGURE variants: everything `configureAs` can do. -/
theorem configureAs_cases (m : Strategy) (f : SizeFields) (init : State → State) (s : State) :
    (s.fault = true ∧ configureAs m f init s = .next (answerFaulted s)) ∨
    (s.fault = false ∧ s.configured = true ∧
      configureAs m f init s = .next (raise .reconfigure s)) ∨
    (s.fault = false ∧ s.configured = false ∧ sizesLegal s.build m f = false ∧
      configureAs m f init s = .next (raise .cfgBadSize s)) ∨
    (s.fault = false ∧ s.configured = false ∧ sizesLegal s.build m f = true ∧
      configureAs m f init s = .next (complete (latchConfiguration m f (init s)))) := by
  unfold configureAs underConfigure
  cases s.fault <;> cases s.configured <;> cases sizesLegal s.build m f <;> simp

/-- Everything `exec` can do: answer as a faulted block, raise a fault, perform the operation, or stop on
a variant that STRATEGY does not select (60_exceptions.md R239; log 7). -/
inductive ExecCase (i : Instr) (s : State) : Prop
  | answered (hf : s.fault = true) (h : exec i s = .next (answerFaulted s))
  | raised (hf : s.fault = false) (c : Cause) (h : exec i s = .next (raise c s))
  | performed (hf : s.fault = false) (hp : Performable i s) (h : exec i s = .next (performed i s))
  | wrongStrategy (hf : s.fault = false) (hc : s.configured = true)
      (hm : i.wellFormed s.strategy = false) (h : exec i s = .fault .wrongStrategy)

theorem ExecCase.ofUnderStrategy {i : Instr} {m : Strategy} {s k : State} (hm : i.mode = some m)
    (he : exec i s = underStrategy m s k)
    (hk : s.configured = true ∧ s.strategy = m →
      (∃ c, k = raise c s) ∨ (Performable i s ∧ k = Machine.performed i s)) : ExecCase i s := by
  rcases underStrategy_cases m s k with ⟨hf, h⟩ | ⟨hf, hc, h⟩ | ⟨hf, hc, hs, h⟩ | ⟨hf, hc, hs, h⟩
  · exact .answered hf (he.trans h)
  · exact .raised hf _ (he.trans h)
  · rcases hk ⟨hc, hs⟩ with ⟨c, hk⟩ | ⟨hp, hk⟩
    · exact .raised hf c (he.trans (hk ▸ h))
    · exact .performed hf hp (he.trans (hk ▸ h))
  · refine .wrongStrategy hf hc ?_ (he.trans h)
    simp only [Instr.wellFormed, hm]
    simpa using fun h => hs h.symm

theorem ExecCase.ofConfigureAs {i : Instr} {m : Strategy} {f : SizeFields} {init : State → State}
    {s : State} (he : exec i s = configureAs m f init s)
    (hp : s.configured = false ∧ sizesLegal s.build m f = true → Performable i s)
    (hk : complete (latchConfiguration m f (init s)) = Machine.performed i s) : ExecCase i s := by
  rcases configureAs_cases m f init s with ⟨hf, h⟩ | ⟨hf, -, h⟩ | ⟨hf, -, -, h⟩ | ⟨hf, hc, hl, h⟩
  · exact .answered hf (he.trans h)
  · exact .raised hf _ (he.trans h)
  · exact .raised hf _ (he.trans h)
  · exact .performed hf (hp ⟨hc, hl⟩) (he.trans (hk ▸ h))

theorem exec_cases (i : Instr) (s : State) : ExecCase i s := by
  cases i with
  | configureStatic f => exact .ofConfigureAs (m := .static) (init := id) rfl id rfl
  | configureGshare f => exact .ofConfigureAs (m := .gshare) rfl id rfl
  | configureLocal f => exact .ofConfigureAs (m := .localHist) rfl id rfl
  | configureTournament f =>
    exact .ofConfigureAs (m := .tournament)
      (init := fun s => initChooser (initLocal (initGlobal s))) rfl id rfl
  | configureCustom f => exact .ofConfigureAs (m := .custom) rfl id rfl
  | predictStatic pc => exact .ofUnderStrategy rfl rfl fun h => .inr ⟨h, rfl⟩
  | predictGshare pc => exact .ofUnderStrategy rfl rfl fun h => .inr ⟨h, rfl⟩
  | predictLocal pc => exact .ofUnderStrategy rfl rfl fun h => .inr ⟨h, rfl⟩
  | predictTournament pc => exact .ofUnderStrategy rfl rfl fun h => .inr ⟨h, rfl⟩
  | predictCustom pc => exact .ofUnderStrategy rfl rfl fun h => .inr ⟨h, rfl⟩
  | trainStatic pc o => exact .ofUnderStrategy rfl rfl fun h => .inr ⟨h, rfl⟩
  | trainGshare pc o => exact .ofUnderStrategy rfl rfl fun h => .inr ⟨h, rfl⟩
  | trainLocal pc o => exact .ofUnderStrategy rfl rfl fun h => .inr ⟨h, rfl⟩
  | trainTournament pc o => exact .ofUnderStrategy rfl rfl fun h => .inr ⟨h, rfl⟩
  | trainCustom pc o =>
    refine .ofUnderStrategy rfl rfl fun h => ?_
    by_cases hp : paired pc s = true
    · exact .inr ⟨⟨h.1, h.2, hp⟩, by rw [if_pos hp]; rfl⟩
    · exact .inl ⟨.trainUnpaired, by rw [if_neg hp]⟩

/-- An operation that passes the checks of 60_exceptions.md R239 is performed. -/
theorem exec_of_performable {i : Instr} {s : State} (hf : s.fault = false) (hp : Performable i s) :
    exec i s = .next (performed i s) := by
  have hc : ∀ (m : Strategy) (f : SizeFields) (init : State → State), s.configured = false →
      sizesLegal s.build m f = true →
      configureAs m f init s = .next (complete (latchConfiguration m f (init s))) := by
    intro m f init h1 h2
    simp [configureAs, underConfigure, hf, h1, h2]
  have hu : ∀ (m : Strategy) (k : State), s.configured = true → s.strategy = m →
      underStrategy m s k = .next k := fun m k h1 h2 => underStrategy_running m s k hf h1 h2
  cases i with
  | configureStatic f => exact hc .static f id hp.1 hp.2
  | configureGshare f => exact hc _ f _ hp.1 hp.2
  | configureLocal f => exact hc _ f _ hp.1 hp.2
  | configureTournament f =>
    exact hc _ f (fun s => initChooser (initLocal (initGlobal s))) hp.1 hp.2
  | configureCustom f => exact hc _ f _ hp.1 hp.2
  | predictStatic pc => exact hu _ _ hp.1 hp.2
  | predictGshare pc => exact hu _ _ hp.1 hp.2
  | predictLocal pc => exact hu _ _ hp.1 hp.2
  | predictTournament pc => exact hu _ _ hp.1 hp.2
  | predictCustom pc => exact hu _ _ hp.1 hp.2
  | trainStatic pc o => exact hu _ _ hp.1 hp.2
  | trainGshare pc o => exact hu _ _ hp.1 hp.2
  | trainLocal pc o => exact hu _ _ hp.1 hp.2
  | trainTournament pc o => exact hu _ _ hp.1 hp.2
  | trainCustom pc o => exact (hu _ _ hp.1 hp.2.1).trans (by rw [if_pos hp.2.2]; rfl)

/-- A performed operation leaves the block running (60_exceptions.md R243). -/
theorem performed_configured {i : Instr} {s : State} (hp : Performable i s) :
    (performed i s).configured = true := by
  cases i <;> first
    | rfl
    | exact hp.1
    | (simp only [performed, globalTrain_eq, localTrain_eq, arbiterTrain_eq, perceptronTrain_eq]
       exact hp.1)

/-- Everything `rejectCommand` can do. -/
theorem rejectCommand_cases (r : Reject) (s : State) :
    (s.fault = true ∧ rejectCommand r s = answerFaulted s) ∨
    (s.fault = false ∧ ∃ c, rejectCommand r s = raise c s) := by
  cases r with
  | reservedOpcode => cases h : s.fault <;> simp [rejectCommand, h]; exact ⟨_, rfl⟩
  | reservedBits => cases h : s.fault <;> simp [rejectCommand, h]; exact ⟨_, rfl⟩
  | badStrategyTag t =>
    rcases underConfigure_cases s (raise .cfgBadStrategy s) with ⟨hf, h⟩ | ⟨hf, -, h⟩ | ⟨hf, -, h⟩
    · exact .inl ⟨hf, h⟩
    · exact .inr ⟨hf, _, h⟩
    · exact .inr ⟨hf, _, h⟩

/-- The strategy a variant selected by `m` belongs to is `m` (46_facade.md R200, R201). -/
theorem wellFormed_of_decode (m : Strategy) (w : Word) (i : Instr) (h : decode m w = .ok i) :
    i.wellFormed m = true := by
  have hs : ∀ c, selectVariant m c = .ok i → i.wellFormed m = true := by
    intro c hc
    cases c with
    | configure t f =>
      simp only [selectVariant] at hc
      split at hc
      · next k _ => cases k <;> (cases hc; rfl)
      · cases hc
    | predict pc => cases m <;> (cases hc; rfl)
    | train pc o => cases m <;> (cases hc; rfl)
  simp only [decode] at h
  split at h
  · cases h
  · exact hs _ h

/-- Everything `step` can do on a presented word (60_exceptions.md R239). -/
theorem step_cases (s : State) (w : Word) (rest : List Word) (hw : s.cmds = w :: rest) :
    let s' : State := { s with cmds := rest }
    (s.fault = true ∧ step s = .next (answerFaulted s')) ∨
    (s.fault = false ∧ ∃ c, step s = .next (raise c s')) ∨
    (s.fault = false ∧ ∃ i, decode s.strategy w = .ok i ∧ Performable i s' ∧
      step s = .next (performed i s')) := by
  intro s'
  have hstep : step s = match decode s.strategy w with
      | .ok i => exec i s'
      | .error r => .next (rejectCommand r s') := by
    simp only [step, takeCommand_cons s w rest hw]; rfl
  cases hd : decode s.strategy w with
  | error r =>
    rw [hd] at hstep
    rcases rejectCommand_cases r s' with ⟨hf, h⟩ | ⟨hf, c, h⟩
    · exact .inl ⟨hf, hstep.trans (congrArg _ h)⟩
    · exact .inr (.inl ⟨hf, c, hstep.trans (congrArg _ h)⟩)
  | ok i =>
    rw [hd] at hstep
    rcases exec_cases i s' with ⟨hf, h⟩ | ⟨hf, c, h⟩ | ⟨hf, hp, h⟩ | ⟨hf, hc, hwf, h⟩
    · exact .inl ⟨hf, hstep.trans h⟩
    · exact .inr (.inl ⟨hf, c, hstep.trans h⟩)
    · exact .inr (.inr ⟨hf, i, rfl, hp, hstep.trans h⟩)
    · rw [show s'.strategy = s.strategy from rfl, wellFormed_of_decode s.strategy w i hd] at hwf
      cases hwf

/-- A step with no word presented (log 1). -/
theorem step_nil (s : State) (h : s.cmds = []) : step s = .refused .noCommand := by
  simp [step, takeCommand_nil s h]

end Sys2Proof.Machine
end

