-- ==== Sys2Proof/Laws/PerInstr.lean ====
section
/-! SUPPORT. Statements about all operations, one lemma per constructor. -/

namespace Sys2Proof.Laws.MatchesRow

/-- The match and mask of an operation's row in the opcode table (30_encoding.md R84). -/
def rowOf : Instr → Word × Word
  | .configureStatic _ => (0x1000000000000000, 0xFF00000000000000)
  | .configureGshare _ => (0x1100000000000000, 0xFF00000000000000)
  | .configureLocal _ => (0x1200000000000000, 0xFF00000000000000)
  | .configureTournament _ => (0x1300000000000000, 0xFF00000000000000)
  | .configureCustom _ => (0x1400000000000000, 0xFF00000000000000)
  | .predictStatic _ | .predictGshare _ | .predictLocal _
  | .predictTournament _ | .predictCustom _ => (0x2000000000000000, 0xFFFFFFFF00000000)
  | .trainStatic _ _ | .trainGshare _ _ | .trainLocal _ _
  | .trainTournament _ _ | .trainCustom _ _ => (0x3000000000000000, 0xFFFFFFFE00000000)

/-- The word of the operation selects the operation's row: its fixed bits are the row's. -/
def Statement (i : Instr) : Prop := encode i &&& (rowOf i).2 = (rowOf i).1

/-- The bits OP and STRAT of a format-C word. -/
theorem formatC_row (t : BitVec 4) (f : SizeFields) :
    formatC t f &&& 0xFF00000000000000 = (0x1#4 ++ t ++ 0#56 : Word) := by
  obtain ⟨g, l, p, np, nw, th⟩ := f
  apply BitVec.eq_of_getLsbD_eq
  intro k hk
  simp only [formatC, BitVec.getLsbD_and, BitVec.getLsbD_append]
  interval_cases k <;> simp

/-- The bits of a format-B word outside O and PC. -/
theorem formatB_row (op : BitVec 4) (o : Bool) (pc : Pc) :
    formatB op o pc &&& 0xFFFFFFFE00000000 = (op ++ 0#60 : Word) := by
  apply BitVec.eq_of_getLsbD_eq
  intro k hk
  simp only [formatB, BitVec.getLsbD_and, BitVec.getLsbD_append]
  interval_cases k <;> simp

/-- A PREDICT word has bit 32 clear as well. -/
theorem predict_row (pc : Pc) :
    formatB 0x2 false pc &&& 0xFFFFFFFF00000000 = 0x2000000000000000 := by
  apply BitVec.eq_of_getLsbD_eq
  intro k hk
  simp only [formatB, BitVec.getLsbD_and, BitVec.getLsbD_append]
  interval_cases k <;> simp

theorem configureStatic (f : SizeFields) : Statement (.configureStatic f) := (formatC_row _ f).trans rfl
theorem configureGshare (f : SizeFields) : Statement (.configureGshare f) := (formatC_row _ f).trans rfl
theorem configureLocal (f : SizeFields) : Statement (.configureLocal f) := (formatC_row _ f).trans rfl
theorem configureTournament (f : SizeFields) : Statement (.configureTournament f) := (formatC_row _ f).trans rfl
theorem configureCustom (f : SizeFields) : Statement (.configureCustom f) := (formatC_row _ f).trans rfl
theorem predictStatic (pc : Pc) : Statement (.predictStatic pc) := predict_row pc
theorem predictGshare (pc : Pc) : Statement (.predictGshare pc) := predict_row pc
theorem predictLocal (pc : Pc) : Statement (.predictLocal pc) := predict_row pc
theorem predictTournament (pc : Pc) : Statement (.predictTournament pc) := predict_row pc
theorem predictCustom (pc : Pc) : Statement (.predictCustom pc) := predict_row pc
theorem trainStatic (pc : Pc) (o : Bool) : Statement (.trainStatic pc o) := (formatB_row _ o pc).trans rfl
theorem trainGshare (pc : Pc) (o : Bool) : Statement (.trainGshare pc o) := (formatB_row _ o pc).trans rfl
theorem trainLocal (pc : Pc) (o : Bool) : Statement (.trainLocal pc o) := (formatB_row _ o pc).trans rfl
theorem trainTournament (pc : Pc) (o : Bool) : Statement (.trainTournament pc o) := (formatB_row _ o pc).trans rfl
theorem trainCustom (pc : Pc) (o : Bool) : Statement (.trainCustom pc o) := (formatB_row _ o pc).trans rfl

end Sys2Proof.Laws.MatchesRow
end

