-- ==== Sys2Proof/Tests/Slice0.lean ====
section
/-! SUPPORT. Small checks against the spec's own words and vectors, the smoke test of WellFormed, and a
witness for the hypotheses of every statement. -/

namespace Sys2Proof.Tests

open Sys2Proof.Machine Sys2Proof.Claims

/-! ## Helpers -/

/-- The size fields that are all 0. -/
def zeros : SizeFields := { g := 0, l := 0, p := 0, np := 0, nw := 0, th := 0 }

/-- A running block of strategy `m` with G = 4, L = 2, P = 2, NP = 4, NW = 5, TH = 16 and every table at
its reset value. -/
def running (m : Strategy) : State :=
  { State.reset with
    configured := true, strategy := m, g := 4, l := 2, p := 2, np := 4, nw := 5, th := 16 }

/-- The block of the example of 44_tournament.md R163: P = 2, G = 2, L = 1, CH[0] = 1, GHR = 0b11,
PHT[3] = 1, LHT[0] = 1, LPT[1] = 2. -/
def arbiterExample : State :=
  { running .tournament with g := 2, l := 1, ghr := 3, lht := [(0, 1)], lpt := [(1, 2)] }

/-- The block of 45_perceptron.md R184's example after `PREDICT 0x4`: a paired record with y = 0. -/
def perceptronExample : State := { running .custom with scV := true, scPc := 0x4 }

/-- A faulted block with CAUSE = 2. -/
def faulted : State := { State.reset with fault := true, cause := 2, rspStatus := 2 }

/-- Power-on with dirty tables, as 10_state.md R40 allows. -/
def dirty : State :=
  { State.reset with
    ghr := 9, pht := [(3, 2)], lht := [(1, 3)], lpt := [(0, 3)], ch := [(2, 0)]
    w := [(0, 7)], b := [(1, 5)], h := 3, scV := true }

/-- What `f` reads in the next state. -/
def after {α : Type} (r : Result) (f : State → α) : Option α :=
  match r with
  | .next t => some (f t)
  | .fault _ => none
  | .refused _ => none

/-- The two response signals. -/
def response (s : State) : Status × Bool := (s.rspStatus, s.rspTaken)

/-- The word that a step runs on a block where the driver presents it first. -/
def stepOn (s : State) (w : Word) : Result := step (presentCommand w s)

/-! ## Decoding: words of 95_test_vectors.md section 2, and of section 8 -/

theorem test_decode_configureStatic : decode .static 0x1000000000000000 = .ok (.configureStatic ⟨0, 0, 0, 0, 0, 0⟩) := by decide
theorem test_decode_configureGshare : decode .static 0x1180000000000000 = .ok (.configureGshare ⟨32, 0, 0, 0, 0, 0⟩) := by decide
theorem test_decode_configureLocal : decode .static 0x1200308000000000 = .ok (.configureLocal ⟨0, 3, 2, 0, 0, 0⟩) := by decide
theorem test_decode_configureTournament : decode .static 0x1308108000000000 = .ok (.configureTournament ⟨2, 1, 2, 0, 0, 0⟩) := by decide
theorem test_decode_configureCustom : decode .static 0x1400002000FFFFFF = .ok (.configureCustom ⟨0, 0, 0, 8192, 255, 65535⟩) := by decide
theorem test_decode_predictStatic : decode .static 0x20000000FFFFFFFF = .ok (.predictStatic 0xFFFFFFFF) := by decide
theorem test_decode_predictGshare : decode .gshare 0x200000001234ABCD = .ok (.predictGshare 0x1234ABCD) := by decide
theorem test_decode_predictLocal : decode .localHist 0x2000000000000004 = .ok (.predictLocal 0x4) := by decide
theorem test_decode_predictTournament : decode .tournament 0x2000000000000008 = .ok (.predictTournament 0x8) := by decide
theorem test_decode_predictCustom : decode .custom 0x2000000000000004 = .ok (.predictCustom 0x4) := by decide
theorem test_decode_trainStatic : decode .static 0x3000000000000004 = .ok (.trainStatic 0x4 false) := by decide
theorem test_decode_trainGshare : decode .gshare 0x300000011234ABCD = .ok (.trainGshare 0x1234ABCD true) := by decide
theorem test_decode_trainLocal : decode .localHist 0x30000001FFFFFFFF = .ok (.trainLocal 0xFFFFFFFF true) := by decide
theorem test_decode_trainTournament : decode .tournament 0x3000000000000008 = .ok (.trainTournament 0x8 false) := by decide
theorem test_decode_trainCustom : decode .custom 0x3000000100000004 = .ok (.trainCustom 0x4 true) := by decide

theorem test_rejects_zero_word : decode .static 0x0000000000000000 = .error .reservedOpcode := by
  decide
theorem test_rejects_ones_word : decode .custom 0xFFFFFFFFFFFFFFFF = .error .reservedOpcode := by
  decide
theorem test_rejects_predict_bit_32 : decode .static 0x2000000100000004 = .error .reservedBits := by
  decide
theorem test_rejects_train_bit_33 : decode .static 0x3000000200000004 = .error .reservedBits := by
  decide
theorem test_rejects_train_bit_59 : decode .static 0x3800000000000004 = .error .reservedBits := by
  decide
theorem test_rejects_tag_7 :
    decode .static 0x1710000000000000 = .error (.badStrategyTag 7) := by decide
theorem test_decodeTableWord :
    decodeTableWord 64 0x1110000000000000 = some (.configureGshare { zeros with g := 4 }) ∧
    decodeTableWord 64 0x2000000000000004 = some (.predictStatic 0x4) ∧
    decodeTableWord 64 0x4000000000000000 = none := by decide
theorem test_withFetchWord :
    (State.reset.withFetchWord 64 0x1000000000000000).cmds = [0x1000000000000000] := by decide
theorem test_encode_train : encode (.trainLocal 0x4 true) = 0x3000000100000004 := by decide
theorem test_encode_configure :
    encode (.configureLocal { zeros with l := 2, p := 2 }) = 0x1200208000000000 := by decide

/-! ## WellFormed: every PREDICT and TRAIN variant is refused under another strategy -/

theorem test_illformed_predictStatic : (Instr.predictStatic 0x4).wellFormed .gshare = false := by decide
theorem test_illformed_trainStatic : (Instr.trainStatic 0x4 true).wellFormed .gshare = false := by decide
theorem test_illformed_predictGshare : (Instr.predictGshare 0x4).wellFormed .localHist = false := by decide
theorem test_illformed_trainGshare : (Instr.trainGshare 0x4 true).wellFormed .localHist = false := by decide
theorem test_illformed_predictLocal : (Instr.predictLocal 0x4).wellFormed .tournament = false := by decide
theorem test_illformed_trainLocal : (Instr.trainLocal 0x4 true).wellFormed .tournament = false := by decide
theorem test_illformed_predictTournament : (Instr.predictTournament 0x4).wellFormed .custom = false := by decide
theorem test_illformed_trainTournament : (Instr.trainTournament 0x4 true).wellFormed .custom = false := by decide
theorem test_illformed_predictCustom : (Instr.predictCustom 0x4).wellFormed .static = false := by decide
theorem test_illformed_trainCustom : (Instr.trainCustom 0x4 true).wellFormed .static = false := by decide
theorem test_wellformed_configure : (Instr.configureCustom zeros).wellFormed .gshare = true := by decide
theorem test_wellformed_predict : (Instr.predictCustom 0x4).wellFormed .custom = true := by decide

/-! ## Tables -/

theorem test_write_then_read : Table.read (1 : Counter) (Table.write 1 [(2, 3)] 0 2) 0 = 2 := by decide
theorem test_write_reset_value_removes :
    Table.write (1 : Counter) [(2, 3), (5, 0)] 2 1 = [(5, 0)] := by decide
theorem test_write_keeps_order :
    Table.write (1 : Counter) [(2, 3), (5, 0)] 4 2 = [(2, 3), (4, 2), (5, 0)] := by decide
theorem test_unsorted_is_not_wf : Table.wf (1 : Counter) [(5, 0), (2, 3)] = false := by decide

/-! ## Primitives: 95_test_vectors.md section 3, 00_scope.md R11 -/

theorem test_shin_wraps : shin (0x80000000 : Hist) true 32 = 1 := by decide
theorem test_shin_masks : shin (0b1010 : Hist) true 4 = 0b0101 := by decide
theorem test_clamp_high : clamp8 128 = 127 := by decide
theorem test_clamp_low : (clamp8 (-129)).toInt = -128 := by decide

/-! ## One step of each operation -/

/-- 46_facade.md R205. -/
theorem test_configureStatic :
    after (stepOn State.reset 0x1000000000000000) (fun t => (t.configured, t.strategy)) =
      some (true, .static) := by decide
/-- 46_facade.md R206: 0x1110000000000000 leaves every counter at 1 and GHR at 0. -/
theorem test_configureGshare :
    after (stepOn dirty 0x1110000000000000) (fun t => (t.g, t.ghr, readPht t 3, t.cause)) =
      some (4, 0, 1, 0) := by decide
/-- 95_test_vectors.md F6: g = 33 raises CFG_BAD_SIZE. -/
theorem test_configureGshare_bad_size :
    after (stepOn State.reset 0x1184000000000000) (fun t => (t.configured, t.cause)) =
      some (false, 2) := by decide
/-- 46_facade.md R207: 0x1200208000000000. -/
theorem test_configureLocal :
    after (stepOn dirty 0x1200208000000000) (fun t => (t.l, t.p, readLht t 1, readLpt t 0)) =
      some (2, 2, 0, 1) := by decide
/-- 95_test_vectors.md F10: p = 0 raises CFG_BAD_SIZE. -/
theorem test_configureLocal_bad_size :
    after (stepOn State.reset 0x1200200000000000) response = some (2, false) := by decide
/-- 46_facade.md R208: 0x1308108000000000, CHOOSER_INIT = 1. -/
theorem test_configureTournament :
    after (stepOn dirty 0x1308108000000000)
      (fun t => (t.ghr, readPht t 3, readLht t 1, readLpt t 0, readCh t 2)) =
      some (0, 1, 0, 1, 1) := by decide
/-- 95_test_vectors.md F11: g = 0 raises CFG_BAD_SIZE. -/
theorem test_configureTournament_bad_size :
    after (stepOn State.reset 0x1300108000000000) response = some (2, false) := by decide
/-- 46_facade.md R209: 0x1400000004050010. -/
theorem test_configureCustom :
    after (stepOn dirty 0x1400000004050010) (fun t => (t.np, t.nw, t.th)) = some (4, 5, 16) ∧
    after (stepOn dirty 0x1400000004050010) (fun t => (readW t 0 0, readB t 1, t.h, t.scV)) =
      some (0, 0, 0, false) := by decide
/-- 95_test_vectors.md F12: np = 3 is not a power of two. -/
theorem test_configureCustom_bad_size :
    after (stepOn State.reset 0x1400000003050010) response = some (2, false) := by decide
/-- 46_facade.md R202. -/
theorem test_predictStatic :
    after (stepOn (running .static) 0x20000000FFFFFFFF) response = some (0, true) := by decide
/-- 46_facade.md R202 with STATIC_DIR = NOT_TAKEN. -/
theorem test_predictStatic_not_taken :
    after (stepOn { running .static with build := { Config.defaultBuild with staticDir := false } }
      0x2000000000000004) response = some (0, false) := by decide
/-- 46_facade.md R203. -/
theorem test_trainStatic :
    after (stepOn (running .static) 0x3000000100000004) id = some (running .static) := by decide
/-- 42_gshare.md R130: G = 4, pc = 0x4, GHR = 0b0111 selects entry 3. -/
theorem test_predictGshare :
    after (stepOn { running .gshare with ghr := 7, pht := [(3, 2)] } 0x2000000000000004) response =
      some (0, true) := by decide
/-- 42_gshare.md R132: `TRAIN 0x4, T` sets PHT[4] = 2 and GHR = 0b0001. -/
theorem test_trainGshare :
    after (stepOn (running .gshare) 0x3000000100000004) (fun t => (t.pht, t.ghr)) =
      some ([(4, 2)], 1) := by decide
/-- 42_gshare.md R132: a counter at 3 stays, and GHR is shifted. -/
theorem test_trainGshare_saturated :
    after (stepOn { running .gshare with pht := [(4, 3)] } 0x3000000100000004)
      (fun t => (t.pht, t.ghr)) = some ([(4, 3)], 1) := by decide
/-- 43_local.md R147: LHT[1] = 0b01, LPT[1] = 2, `PREDICT 0x5` returns TAKEN. -/
theorem test_predictLocal :
    after (stepOn { running .localHist with lht := [(1, 1)], lpt := [(1, 2)] } 0x2000000000000005)
      response = some (0, true) := by decide
/-- 43_local.md R148: `TRAIN 0x5, T` sets LPT[0] = 2 and LHT[1] = 0b01. -/
theorem test_trainLocal :
    after (stepOn (running .localHist) 0x3000000100000005) (fun t => (t.lpt, t.lht)) =
      some ([(0, 2)], [(1, 1)]) := by decide
/-- 44_tournament.md R162: CH[0] = 3, G = 2, GHR = 0b01, PHT[1] = 3, `PREDICT 0x8` returns TAKEN. -/
theorem test_predictTournament :
    after (stepOn { running .tournament with g := 2, ghr := 1, ch := [(0, 3)], pht := [(1, 3)] }
      0x2000000000000008) response = some (0, true) := by decide
/-- 44_tournament.md R161: CH = 1 prefers Local. -/
theorem test_predictTournament_local :
    after (stepOn { running .tournament with g := 2, ghr := 1, pht := [(1, 3)] }
      0x2000000000000008) response = some (0, false) := by decide
/-- 44_tournament.md R163: `TRAIN 0x8, NT` gives CH[0] = 2, PHT[3] = 0, GHR = 0b10, LPT[1] = 1,
LHT[0] = 0. -/
theorem test_trainTournament :
    after (stepOn arbiterExample 0x3000000000000008) (fun t => (t.ch, t.pht, t.ghr)) =
      some ([(0, 2)], [(3, 0)], 2) ∧
    after (stepOn arbiterExample 0x3000000000000008) (fun t => (readLpt t 1, readLht t 0)) =
      some (1, 0) := by decide
/-- 45_perceptron.md R178: NW = 2, B[0] = -128, W[0] = [-128, 127], H = 0b01 gives y = -383. -/
theorem test_predictCustom :
    after (stepOn { running .custom with np := 1, nw := 2, h := 1, b := [(0, 0x80)]
                                         w := [(0, 0x80), (1, 127)] } 0x2000000000000004)
      (fun t => (t.scV, t.scPc, t.scIdx, t.scY, t.rspTaken)) =
      some (true, 0x4, 0, -383, false) := by decide
/-- 45_perceptron.md R178: with H = 0b00 the same bank gives y = -127. -/
theorem test_predictCustom_negated_weight :
    after (stepOn { running .custom with np := 1, nw := 2, b := [(0, 0x80)]
                                         w := [(0, 0x80), (1, 127)] } 0x2000000000000004)
      (fun t => t.scY) = some (-127) := by decide
/-- 45_perceptron.md R184: every weight of row 0 becomes -1, B[0] = 1, H = 0b00001, SC.V = 0. -/
theorem test_trainCustom :
    after (stepOn perceptronExample 0x3000000100000004) (fun t => (t.w, t.b, t.h, t.scV)) =
      some ([(0, -1), (1, -1), (2, -1), (3, -1), (4, -1)], [(0, 1)], 1, false) := by decide
/-- 45_perceptron.md R180: with abs(y) = TH and a correct prediction there is no update. -/
theorem test_trainCustom_at_threshold :
    after (stepOn { perceptronExample with scY := 16 } 0x3000000100000004)
      (fun t => (t.w, t.b, t.h)) = some ([], [], 1) := by decide

/-! ## Faults: 95_test_vectors.md section 8 -/

theorem test_not_configured :
    after (stepOn State.reset 0x2000000000000004) (fun t => (t.fault, t.cause, response t)) =
      some (true, 3, (3, false)) := by decide
theorem test_reconfigure_before_bad_tag :
    after (stepOn (running .gshare) 0x1900000000000000) response = some (4, false) := by decide
theorem test_bad_tag_before_bad_size :
    after (stepOn State.reset 0x1900000000000000) response = some (1, false) := by decide
theorem test_illegal_before_not_configured :
    after (stepOn State.reset 0x2000000200000004) response = some (6, false) := by decide
theorem test_train_unpaired :
    after (stepOn perceptronExample 0x3000000100000008) response = some (5, false) := by decide
theorem test_faulted_answers_first_cause :
    after (stepOn faulted 0x0000000000000000) response = some (2, false) := by decide
theorem test_no_command : step State.reset = .refused .noCommand := rfl

/-! ## Listings: 30_encoding.md R91 -/

theorem test_listing :
    assembleListing "CONFIGURE LOCAL l=3, p=2 ; comment\nTRAIN 0x4, T".toList [] =
      some [0x1200308000000000, 0x3000000100000004] := by decide
theorem test_listing_rejects_unknown : assembleListing "NOP".toList [] = none := by decide

/-! ## Witnesses: the hypotheses of every statement hold together somewhere -/

theorem running_under (m : Strategy) : RunningUnder m (running m) := ⟨rfl, rfl, rfl⟩

theorem dirty_unconfigured : Unconfigured dirty := ⟨rfl, rfl⟩

theorem witness_DecodeOfEncodeIsTheOperation :
    (Instr.trainCustom 0xFFFFFFFF true).wellFormed .custom = true ∧
    (Instr.configureLocal { zeros with g := 63 }).wellFormed .tournament = true := by decide
theorem witness_EncodeOfDecodeIsTheWord :
    decode .custom 0x3000000100000004 = .ok (.trainCustom 0x4 true) := by decide
theorem witness_RejectedWordsAreTheReservedOnes :
    (0xF000000000000000 : Word).toNat / 2 ^ 60 = 15 ∧
    ((0x2000000100000000 : Word).toNat / 2 ^ 60 = 2 ∧
      (0x2000000100000000 : Word).toNat / 2 ^ 32 % 2 ^ 28 = 1) ∧
    ((0x3800000000000004 : Word).toNat / 2 ^ 60 = 3 ∧
      (0x3800000000000004 : Word).toNat / 2 ^ 33 % 2 ^ 27 = 2 ^ 26) ∧
    (5 : BitVec 4).toNat = (0x1500000000000000 : Word).toNat / 2 ^ 56 % 2 ^ 4 := by decide
theorem witness_WordSelectsRowByMaskMatchAndMode :
    (0x30000001FFFFFFFF : Word) &&& 0xFFFFFFFE00000000 = 0x3000000000000000 ∧
    (0x20000000FFFFFFFF : Word) &&& 0xFFFFFFFF00000000 = 0x2000000000000000 ∧
    (0x1184000000000000 : Word) &&& 0xFF00000000000000 = 0x1100000000000000 := by decide
theorem witness_StepRunsTheDecodedOperation :
    (presentCommand 0x2000000000000004 (running .gshare)).cmds = 0x2000000000000004 :: [] ∧
    decode (running .gshare).strategy 0x2000000000000004 = .ok (.predictGshare 0x4) := by decide
theorem witness_EveryWordCausesOneTransition :
    (presentCommand 0xFFFFFFFFFFFFFFFF faulted).cmds = 0xFFFFFFFFFFFFFFFF :: [] ∧
    State.reset.cmds = [] := by decide
theorem witness_OnlyConfigureWritesControlRegisters :
    after (exec (.configureGshare { zeros with g := 4 }) State.reset) (fun t => t.configured) =
      some true ∧
    after (exec (.trainGshare 0x4 true) (running .gshare)) (fun t => t.sizes) =
      some (running .gshare).sizes := by decide
theorem witness_HistoryShiftsInTheOutcome : 1 ≤ 32 ∧ 32 ≤ 32 ∧ 1 ≤ 1 ∧ 1 ≤ 255 := by decide
theorem witness_IndicesAreLowBitsAndInRange : (running .custom).np.toNat = 2 ^ 2 := by decide
theorem witness_PredictStaticAnswersStaticDir : RunningUnder .static (running .static) :=
  running_under _
theorem witness_TrainStaticHasNoEffect : RunningUnder .static (running .static) := running_under _
theorem witness_PredictGshareReadsThePht : RunningUnder .gshare (running .gshare) := running_under _
theorem witness_TrainGshareMovesOneCounterAndShiftsGhr :
    RunningUnder .gshare (running .gshare) ∧ Memory.wf (running .gshare) = true :=
  ⟨running_under _, by decide⟩
theorem witness_PredictLocalReadsTheLpt : RunningUnder .localHist (running .localHist) :=
  running_under _
theorem witness_TrainLocalMovesThePreUpdateEntry :
    RunningUnder .localHist (running .localHist) ∧ Memory.wf (running .localHist) = true :=
  ⟨running_under _, by decide⟩
theorem witness_PredictTournamentFollowsTheChooser :
    RunningUnder .tournament (running .tournament) := running_under _
/-- The three chooser clauses: Global alone right, Local alone right, both alike. -/
theorem witness_TrainTournamentTrainsAllThreeParts :
    RunningUnder .tournament arbiterExample ∧ Memory.wf arbiterExample = true ∧
    (globalPredict 0x8 arbiterExample = false ∧ localPredict 0x8 arbiterExample ≠ false) ∧
    (localPredict 0x8 arbiterExample = true ∧ globalPredict 0x8 arbiterExample ≠ true) ∧
    (globalPredict 0x8 (running .tournament) = localPredict 0x8 (running .tournament)) :=
  ⟨⟨rfl, rfl, rfl⟩, by decide, by decide, by decide, by decide⟩
theorem witness_PredictCustomAnswersTheSignOfTheSum : RunningUnder .custom (running .custom) :=
  running_under _
/-- Both values of the training condition, the second at abs(y) = TH. -/
theorem witness_TrainCustomTakesOneClampedStep :
    (RunningUnder .custom perceptronExample ∧ Memory.wf perceptronExample = true ∧
      perceptronExample.scV = true ∧ perceptronExample.scPc = 0x4) ∧
    perceptronExample.scY.natAbs < perceptronExample.th.toNat ∧
    ¬ (decide (0 ≤ (16 : Int)) ≠ true ∨ (16 : Int).natAbs < perceptronExample.th.toNat) :=
  ⟨⟨⟨rfl, rfl, rfl⟩, by decide, rfl, rfl⟩, by decide, by decide⟩
theorem witness_ConfigureStaticLatchesTheFields : Unconfigured dirty := dirty_unconfigured
/-- G at both ends of its range, and just outside them. -/
theorem witness_ConfigureGshareInitialisesThePht :
    Unconfigured dirty ∧
    (1 ≤ (1 : BitVec 6).toNat ∧ (1 : BitVec 6).toNat ≤ dirty.build.maxBits) ∧
    (1 ≤ (32 : BitVec 6).toNat ∧ (32 : BitVec 6).toNat ≤ dirty.build.maxBits) ∧
    ¬ (1 ≤ (0 : BitVec 6).toNat ∧ (0 : BitVec 6).toNat ≤ dirty.build.maxBits) ∧
    ¬ (1 ≤ (33 : BitVec 6).toNat ∧ (33 : BitVec 6).toNat ≤ dirty.build.maxBits) :=
  ⟨dirty_unconfigured, by decide, by decide, by decide, by decide⟩
theorem witness_ConfigureLocalInitialisesBothTables :
    Unconfigured dirty ∧ SizesInRange dirty.build .localHist { zeros with l := 1, p := 32 } ∧
    ¬ SizesInRange dirty.build .localHist { zeros with l := 1, p := 33 } :=
  ⟨dirty_unconfigured, by unfold SizesInRange; decide, by unfold SizesInRange; decide⟩
theorem witness_ConfigureTournamentInitialisesFourTables :
    Unconfigured dirty ∧
    SizesInRange dirty.build .tournament { zeros with g := 32, l := 1, p := 32 } ∧
    ¬ SizesInRange dirty.build .tournament { zeros with g := 32, l := 0, p := 32 } :=
  ⟨dirty_unconfigured, by unfold SizesInRange; decide, by unfold SizesInRange; decide⟩
theorem witness_ConfigureCustomClearsTheBank :
    Unconfigured dirty ∧
    SizesInRange dirty.build .custom { zeros with np := 8192, nw := 255, th := 65535 } ∧
    SizesInRange dirty.build .custom { zeros with np := 1, nw := 1 } ∧
    ¬ SizesInRange dirty.build .custom { zeros with np := 4, nw := 0 } :=
  ⟨dirty_unconfigured, ⟨⟨by decide, by decide, 13, by decide⟩, by decide, by decide⟩,
    ⟨⟨by decide, by decide, 0, by decide⟩, by decide, by decide⟩, fun h => by
      have := h.2.1
      revert this
      decide⟩
theorem witness_FirstPredictionAfterConfigure :
    Unconfigured dirty ∧
    after (exec (.configureGshare { zeros with g := 4 }) dirty) (fun t => t.strategy) =
      some .gshare ∧
    after (exec (.configureLocal { zeros with l := 2, p := 2 }) dirty) (fun t => t.strategy) =
      some .localHist ∧
    after (exec (.configureTournament { zeros with g := 2, l := 1, p := 2 }) dirty)
      (fun t => t.strategy) = some .tournament ∧
    after (exec (.configureCustom { zeros with np := 4, nw := 5 }) dirty) (fun t => t.strategy) =
      some .custom := ⟨dirty_unconfigured, by decide, by decide, by decide, by decide⟩
theorem witness_UseBeforeConfigureRaisesNotConfigured :
    Unconfigured dirty ∧ (Instr.trainCustom 0x4 true).mode ≠ none :=
  ⟨dirty_unconfigured, by decide⟩
theorem witness_SecondConfigureRaisesReconfigure :
    (running .static).fault = false ∧ (running .static).configured = true ∧
    (Instr.configureCustom zeros).mode = none := by decide
theorem witness_UnknownTagRaisesCfgBadStrategy :
    Unconfigured dirty ∧ 5 ≤ (5 : BitVec 4).toNat ∧ 5 ≤ (15 : BitVec 4).toNat :=
  ⟨dirty_unconfigured, by decide, by decide⟩
theorem witness_OutOfRangeSizeRaisesCfgBadSize :
    Unconfigured dirty ∧ ¬ SizesInRange dirty.build .gshare zeros ∧
    ¬ SizesInRange dirty.build .localHist { zeros with l := 33, p := 1 } :=
  ⟨dirty_unconfigured, by unfold SizesInRange; decide, by unfold SizesInRange; decide⟩
/-- An empty record, and a record of a pc that differs in bit 31 alone. -/
theorem witness_UnpairedTrainRaisesTrainUnpaired :
    RunningUnder .custom (running .custom) ∧ (running .custom).scV = false ∧
    RunningUnder .custom perceptronExample ∧ perceptronExample.scPc ≠ 0x80000004 :=
  ⟨running_under _, rfl, ⟨rfl, rfl, rfl⟩, by decide⟩
theorem witness_OnlyTheLastPredictCanBeTrainedOnce :
    RunningUnder .custom (running .custom) ∧ (0x4 : Pc) ≠ 0x8 := ⟨running_under _, by decide⟩
theorem witness_ReservedWordRaisesIllegalCommand :
    State.reset.fault = false ∧
    ((0x0000000000000004 : Word).toNat / 2 ^ 60 ≠ 1 ∧
      (0x0000000000000004 : Word).toNat / 2 ^ 60 ≠ 2 ∧
      (0x0000000000000004 : Word).toNat / 2 ^ 60 ≠ 3) ∧
    ((0x2800000000000004 : Word).toNat / 2 ^ 60 = 2 ∧
      (0x2800000000000004 : Word).toNat / 2 ^ 32 % 2 ^ 28 ≠ 0) ∧
    ((0x3000000200000004 : Word).toNat / 2 ^ 60 = 3 ∧
      (0x3000000200000004 : Word).toNat / 2 ^ 33 % 2 ^ 27 ≠ 0) := by decide
theorem witness_CommandRaisesTheFirstFaultThatApplies :
    faulted.fault = true ∧
    (State.reset.fault = false ∧
      firstFault State.reset 0x2000000200000004 = some .illegalCommand) ∧
    (perceptronExample.fault = false ∧ firstFault perceptronExample 0x3000000100000004 = none) := by
  decide
theorem witness_FaultEntryWritesNothingElse :
    State.reset.fault = false ∧
    after (stepOn State.reset 0x0000000000000000) (fun t => t.fault) = some true := by decide
theorem witness_FaultedBlockOnlyAnswersItsCause : faulted.fault = true := rfl
theorem witness_FaultIsAbsorbingAlongRuns :
    faulted.fault = true ∧
    after (runSteps 2 { faulted with cmds := [0x1000000000000000, 0x0000000000000000] }) (·.cmds) =
      some [] := by decide
/-- One step from each of the three conditions. -/
theorem witness_LifecycleMovesForwardOnly :
    (State.reset.condition = .unconfigured ∧
      after (stepOn State.reset 0x1000000000000000) State.condition = some .running) ∧
    ((running .static).condition = .running ∧
      after (stepOn (running .static) 0x1000000000000000) State.condition = some .faulted) ∧
    (faulted.condition = .faulted ∧
      after (stepOn faulted 0x1000000000000000) State.condition = some .faulted) := by decide
theorem witness_PowerOnAloneClearsConfiguredAndFault :
    after (exec (.trainStatic 0x4 true) (running .static)) (·.configured) = some true ∧
    after (stepOn faulted 0x0000000000000000) (·.fault) = some true := by decide
/-- The block after `CONFIGURE CUSTOM np=4, nw=5, th=16` and `PREDICT 0x4` meets the invariant. -/
theorem machineInv_perceptronExample : MachineInv perceptronExample where
  build := ⟨by decide, by decide, ⟨13, by decide, by decide⟩, by decide, by decide⟩
  tables := by decide
  healthy := fun _ => ⟨rfl, rfl⟩
  faulted := fun h => by cases h
  taken := fun h => by cases h
  sizes := fun _ => by decide
  globalRange := fun _ h => by revert h; decide
  localRange := fun _ h => by revert h; decide
  chooserRange := fun _ h => by cases h
  bankRange := fun _ _ => ⟨by decide, by decide, fun e h => nomatch h⟩
  scratch := fun _ _ _ => ⟨by decide, by decide⟩
theorem witness_StepKeepsInv :
    MachineInv perceptronExample ∧
    after (exec (.trainCustom 0x4 true) perceptronExample) (·.scV) = some false :=
  ⟨machineInv_perceptronExample, by decide⟩
theorem witness_ConfigurationIsFixedForTheLifetime :
    (running .gshare).configured = true ∧
    after (runSteps 1 { running .gshare with cmds := [0x3000000100000004] }) (·.configured) =
      some true := by decide
theorem witness_PredictionsDoNotDisturbEachOther :
    isPredict (.predictCustom 0x4) = true ∧ isPredict (.predictCustom 0x8) = true ∧
    after (exec (.predictCustom 0x4) (running .custom)) (·.rspTaken) = some true ∧
    after (exec (.predictCustom 0x8) perceptronExample) (·.rspTaken) = some true := by decide
theorem witness_DriverProtocolNeverFaults :
    (running .custom).fault = false ∧ (running .custom).configured = true ∧
    branchWords [(0x4, true), (0x8, false)] ++ [] =
      [0x2000000000000004, 0x3000000100000004, 0x2000000000000008, 0x3000000000000008] := by decide
/-- A run of one branch under each kind of global history. -/
theorem witness_GlobalHistoryHoldsTheLastOutcomes :
    after (runSteps 2 { running .gshare with cmds := branchWords [(0x4, true)] }) (·.ghr) =
      some 1 ∧
    after (runSteps 2 { running .custom with cmds := branchWords [(0x4, true)] }) (·.h) = some 1 ∧
    hasGlobal .gshare = true ∧ 0 < (running .gshare).g.toNat ∧ 0 < (running .custom).nw.toNat := by
  decide
theorem witness_LocalHistoryHoldsItsOwnOutcomes :
    hasLocal (running .localHist).strategy = true ∧ Memory.wf (running .localHist) = true ∧
    after (runSteps 4 { running .localHist with
      cmds := branchWords [(0x5, true), (0x6, false)] }) (fun t => readLht t 1) = some 1 ∧
    0 < (running .localHist).l.toNat := by decide
theorem witness_RepeatedTakenBranchSettlesOnTheComplement :
    RunningUnder .gshare (running .gshare) ∧ 1 ≤ (running .gshare).g.toNat ∧
    (running .gshare).g.toNat ≤ 4 :=
  ⟨running_under _, by decide, by decide⟩
theorem witness_ChooserMovesOnlyOnDisagreement :
    RunningUnder .tournament arbiterExample ∧ Memory.wf arbiterExample = true ∧
    globalPredict 0x8 arbiterExample ≠ localPredict 0x8 arbiterExample ∧
    globalPredict 0x8 (running .tournament) = localPredict 0x8 (running .tournament) :=
  ⟨⟨rfl, rfl, rfl⟩, by decide, by decide, by decide⟩
/-- Both values of the recomputed training condition: abs(y) = 0 is below TH = 16, and is not below TH = 0. -/
theorem witness_ScratchRecordIsNeverStale :
    (MachineInv perceptronExample ∧ RunningUnder .custom perceptronExample ∧
      perceptronExample.scV = true ∧ perceptronExample.scPc = 0x4) ∧
    (decide (0 ≤ ysum perceptronExample 0) = true ∧
      (ysum perceptronExample 0).natAbs < perceptronExample.th.toNat) ∧
    MachineInv { perceptronExample with th := 0 } ∧
    ¬ (ysum { perceptronExample with th := 0 } 0).natAbs < 0 :=
  ⟨⟨machineInv_perceptronExample, ⟨rfl, rfl, rfl⟩, rfl, rfl⟩, by decide,
    { machineInv_perceptronExample with }, by decide⟩
/-- A width of exactly L, a wider one and none; L = 2 and L = 32. -/
theorem witness_WiderLocalHistoryPredictsTheSame :
    ((running .localHist).l.toNat ≤ 32 ∧ Memory.wf (running .localHist) = true ∧
      (∀ a, (fun _ => 4 : Nat → Nat) a % 2 ^ (running .localHist).l.toNat =
        (readLht (running .localHist) a).toNat)) ∧
    ((∀ K, some 2 = some K → (running .localHist).l.toNat ≤ K) ∧
      (∀ K, some 40 = some K → (running .localHist).l.toNat ≤ K) ∧
      (∀ K, none = some K → (running .localHist).l.toNat ≤ K)) ∧
    ({ running .localHist with l := 32 } : State).l.toNat ≤ 32 :=
  ⟨⟨by decide, by decide, fun _ => (by decide : 4 % 2 ^ (2 : BitVec 6).toNat = (0 : Hist).toNat)⟩,
    ⟨fun K h => by cases h; decide, fun K h => by cases h; decide, fun K h => by cases h⟩, by decide⟩
/-- Two running blocks that differ in a table the strategy does not have. -/
theorem witness_StepCannotSeeAbsentState :
    SameVisible (running .static) { running .static with pht := [(0, 3)], scY := 5 } ∧
    after (stepOn (running .static) 0x2000000000000004) (·.rspTaken) = some true :=
  ⟨⟨rfl, rfl, rfl, rfl, rfl, rfl, rfl, fun _ => rfl, fun _ => trivial⟩, by decide⟩
theorem witness_PowerOnContentsAreNeverSeen :
    dirty.build = State.reset.build ∧ dirty.cmds = State.reset.cmds ∧
    after (runSteps 1 { powerOn dirty with cmds := [0x1000000000000000] }) (·.configured) =
      some true := by decide

end Sys2Proof.Tests
end

