-- ==== Sys2Proof/Proofs/PerceptronSum.lean ====
section
/-! PROOF. The range of the perceptron's sum and the width Y_W that holds it (45_perceptron.md R178,
00_scope.md R8). -/

namespace Sys2Proof.Machine

/-- The bias and each of the NW features add between -128 and 128, the bias at most 127
(45_perceptron.md R178). -/
theorem ysum_bounds (s : State) (p : Nat) :
    -128 * (s.nw.toNat + 1 : Int) ≤ ysum s p ∧ ysum s p ≤ 127 + 128 * (s.nw.toNat : Int) := by
  obtain ⟨hlo, hhi⟩ := featureSum_bounds s.h s.w p s.nw.toNat
  have hb := BitVec.toInt_lt (x := readB s p)
  have hb' := BitVec.le_toInt (x := readB s p)
  simp only [ysum]
  omega

/-- A signed number of `8 + ceil(log2 (n + 1))` bits reaches as far as `n + 1` weights of 8 bits
(00_scope.md R8). -/
theorem le_two_pow_sumWidth (n : Nat) :
    128 * (n + 1 : Int) ≤ 2 ^ (8 + Nat.clog 2 (n + 1) - 1) := by
  have hlog : n + 1 ≤ 2 ^ Nat.clog 2 (n + 1) := Nat.le_pow_clog Nat.one_lt_two _
  have hpow : 2 ^ (8 + Nat.clog 2 (n + 1) - 1) = 128 * 2 ^ Nat.clog 2 (n + 1) := by
    rw [show 8 + Nat.clog 2 (n + 1) - 1 = 7 + Nat.clog 2 (n + 1) by omega, pow_add]
    norm_num
  have hnat : 128 * (n + 1) ≤ 2 ^ (8 + Nat.clog 2 (n + 1) - 1) :=
    hpow ▸ Nat.mul_le_mul_left 128 hlog
  exact_mod_cast hnat

/-- NW is a field of 8 bits, so NW + 1 is at most `2 ^ 8` and Y_W at most 16 (00_scope.md R8). -/
theorem sumWidth_le (nw : BitVec 8) : 8 + Nat.clog 2 (nw.toNat + 1) ≤ 16 :=
  Nat.add_le_add_left (Nat.clog_le_of_le_pow nw.isLt) 8

/-- Settles O15: the bounds of the sum are `128 * (NW + 1)` on either side, which Y_W bits hold. -/
theorem perceptronSumFitsItsWidth : Obligations.PerceptronSumFitsItsWidth := by
  intro s p
  obtain ⟨hlo, hhi⟩ := ysum_bounds s p
  have hfit := le_two_pow_sumWidth s.nw.toNat
  exact ⟨⟨hlo, hhi⟩, ⟨by linarith, by linarith⟩, sumWidth_le s.nw⟩

end Sys2Proof.Machine
end

