-- ==== Sys2Proof/Proofs/Variants.lean ====
section
/-! PROOF. The fifteen operations as three families over the strategies: what a performed CONFIGURE,
PREDICT and TRAIN leaves, said once per family (46_facade.md R200, R201, R204). -/

namespace Sys2Proof.Machine

/-- The data state that exists under a strategy, given its reset values by CONFIGURE (10_state.md R40). -/
def initData : Strategy → State → State
  | .static => id
  | .gshare => initGlobal
  | .localHist => initLocal
  | .tournament => fun s => initChooser (initLocal (initGlobal s))
  | .custom => initPerceptron

/-- The prediction of each strategy. -/
def predictTaken (pc : Pc) (s : State) : Strategy → Bool
  | .static => s.build.staticDir
  | .gshare => globalPredict pc s
  | .localHist => localPredict pc s
  | .tournament => arbiterPredict pc s
  | .custom => perceptronTaken (ysum s (pidx pc s).toNat)

/-- The data state after a PREDICT: only CUSTOM leaves a record (45_perceptron.md R179). -/
def predictData (pc : Pc) (s : State) : Strategy → State
  | .custom => recordScratch pc s
  | .static | .gshare | .localHist | .tournament => s

/-- The data state after a TRAIN of each strategy. -/
def trainData (pc : Pc) (o : Bool) (s : State) : Strategy → State
  | .static => s
  | .gshare => globalTrain pc o s
  | .localHist => localTrain pc o s
  | .tournament => arbiterTrain pc o s
  | .custom => perceptronTrain o s

/-- Every operation is a CONFIGURE, a PREDICT or a TRAIN of some strategy. -/
theorem instr_variants (i : Instr) :
    (∃ f m, i = configureVariant f m) ∨ (∃ pc m, i = predictVariant pc m) ∨
      (∃ pc o m, i = trainVariant pc o m) := by
  cases i with
  | configureStatic f => exact .inl ⟨f, .static, rfl⟩
  | configureGshare f => exact .inl ⟨f, .gshare, rfl⟩
  | configureLocal f => exact .inl ⟨f, .localHist, rfl⟩
  | configureTournament f => exact .inl ⟨f, .tournament, rfl⟩
  | configureCustom f => exact .inl ⟨f, .custom, rfl⟩
  | predictStatic pc => exact .inr (.inl ⟨pc, .static, rfl⟩)
  | predictGshare pc => exact .inr (.inl ⟨pc, .gshare, rfl⟩)
  | predictLocal pc => exact .inr (.inl ⟨pc, .localHist, rfl⟩)
  | predictTournament pc => exact .inr (.inl ⟨pc, .tournament, rfl⟩)
  | predictCustom pc => exact .inr (.inl ⟨pc, .custom, rfl⟩)
  | trainStatic pc o => exact .inr (.inr ⟨pc, o, .static, rfl⟩)
  | trainGshare pc o => exact .inr (.inr ⟨pc, o, .gshare, rfl⟩)
  | trainLocal pc o => exact .inr (.inr ⟨pc, o, .localHist, rfl⟩)
  | trainTournament pc o => exact .inr (.inr ⟨pc, o, .tournament, rfl⟩)
  | trainCustom pc o => exact .inr (.inr ⟨pc, o, .custom, rfl⟩)

/-! ## What a performed operation leaves -/

theorem performed_configureVariant (f : SizeFields) (m : Strategy) (s : State) :
    performed (configureVariant f m) s =
      respond 0 false (latchConfiguration m f (initData m s)) := by
  cases m <;> rfl

theorem performed_predictVariant (pc : Pc) (m : Strategy) (s : State) :
    performed (predictVariant pc m) s = respond 0 (predictTaken pc s m) (predictData pc s m) := by
  cases m <;> rfl

theorem performed_trainVariant (pc : Pc) (o : Bool) (m : Strategy) (s : State) :
    performed (trainVariant pc o m) s = respond 0 false (trainData pc o s m) := by
  cases m <;> rfl

/-! ## When an operation is performed -/

theorem performable_configureVariant {f : SizeFields} {m : Strategy} {s : State} :
    Performable (configureVariant f m) s ↔
      s.configured = false ∧ sizesLegal s.build m f = true := by
  cases m <;> rfl

theorem performable_predictVariant {pc : Pc} {m : Strategy} {s : State} :
    Performable (predictVariant pc m) s ↔ s.configured = true ∧ s.strategy = m := by
  cases m <;> rfl

theorem performable_trainVariant {pc : Pc} {o : Bool} {m : Strategy} {s : State} :
    Performable (trainVariant pc o m) s ↔
      s.configured = true ∧ s.strategy = m ∧ (m = .custom → paired pc s = true) := by
  cases m <;> simp [trainVariant, Performable]

/-! ## `exec` of each family -/

theorem exec_configureVariant (f : SizeFields) (m : Strategy) (s : State) :
    exec (configureVariant f m) s = configureAs m f (initData m) s := by
  cases m <;> rfl

theorem exec_predictVariant (pc : Pc) (m : Strategy) (s : State) :
    exec (predictVariant pc m) s = underStrategy m s (performed (predictVariant pc m) s) := by
  cases m <;> rfl

theorem exec_trainVariant (pc : Pc) (o : Bool) (m : Strategy) (s : State) :
    exec (trainVariant pc o m) s = underStrategy m s
      (if m = .custom ∧ paired pc s = false then raise .trainUnpaired s
       else performed (trainVariant pc o m) s) := by
  cases m with
  | custom => cases hp : paired pc s <;> simp [exec, execTrainCustom, trainVariant, performed, hp]
  | static | gshare | localHist | tournament => rfl

/-! ## The registers a PREDICT or TRAIN leaves alone -/

/-- A PREDICT leaves the control and parameter registers alone (10_state.md R21, R23, R24). -/
theorem predictData_configuration (pc : Pc) (s : State) (m : Strategy) :
    (predictData pc s m).configured = s.configured ∧ (predictData pc s m).strategy = s.strategy ∧
      (predictData pc s m).sizes = s.sizes := by
  cases m <;> exact ⟨rfl, rfl, rfl⟩

/-- A TRAIN leaves the control and parameter registers alone (10_state.md R21, R23, R24). -/
theorem trainData_configuration (pc : Pc) (o : Bool) (s : State) (m : Strategy) :
    (trainData pc o s m).configured = s.configured ∧ (trainData pc o s m).strategy = s.strategy ∧
      (trainData pc o s m).sizes = s.sizes := by
  cases m with
  | static | gshare | localHist => exact ⟨rfl, rfl, rfl⟩
  | tournament => rw [trainData, arbiterTrain_eq]; exact ⟨rfl, rfl, rfl⟩
  | custom => rw [trainData, perceptronTrain_eq]; exact ⟨rfl, rfl, rfl⟩

/-- A performed operation leaves the control and parameter registers alone, or is a CONFIGURE of an
unconfigured block (10_state.md R21, R23, R24). -/
theorem performed_configuration {i : Instr} {s : State} (hp : Performable i s) :
    ((performed i s).configured = s.configured ∧ (performed i s).strategy = s.strategy ∧
        (performed i s).sizes = s.sizes) ∨
      (i.mode = none ∧ s.configured = false) := by
  rcases instr_variants i with ⟨f, m, rfl⟩ | ⟨pc, m, rfl⟩ | ⟨pc, o, m, rfl⟩
  · exact .inr ⟨by cases m <;> rfl, (performable_configureVariant.1 hp).1⟩
  · rw [performed_predictVariant]; exact .inl (predictData_configuration pc s m)
  · rw [performed_trainVariant]; exact .inl (trainData_configuration pc o s m)

end Sys2Proof.Machine
end

