-- ==== Sys2Proof/Proofs/WordStep.lean ====
section
/-! PROOF. One step as a function of the word and the state, without the decoder's mode: which state a
command leaves is decided by CONFIGURED first, so STRATEGY is read in a configured block only
(60_exceptions.md R239). -/

namespace Sys2Proof.Machine

/-- The state a command leaves in a block that is not faulted (60_exceptions.md R239). -/
def commandState (s : State) : Command → State
  | .configure t f =>
    if s.configured then raise .reconfigure s
    else
      match Strategy.ofTag t with
      | none => raise .cfgBadStrategy s
      | some m =>
        if sizesLegal s.build m f then performed (configureVariant f m) s else raise .cfgBadSize s
  | .predict pc =>
    if s.configured then performed (predictVariant pc s.strategy) s else raise .notConfigured s
  | .train pc o =>
    if s.configured then
      if s.strategy = .custom ∧ paired pc s = false then raise .trainUnpaired s
      else performed (trainVariant pc o s.strategy) s
    else raise .notConfigured s

/-- The state a word leaves (60_exceptions.md R239). -/
def wordState (w : Word) (s : State) : State :=
  if s.fault then answerFaulted s
  else
    match decodeCommand w with
    | .error _ => raise .illegalCommand s
    | .ok c => commandState s c

theorem wordState_faulted {s : State} (w : Word) (hf : s.fault = true) :
    wordState w s = answerFaulted s := if_pos hf

theorem wordState_illegal {s : State} {w : Word} {r : Reject} (hf : s.fault = false)
    (hd : decodeCommand w = .error r) : wordState w s = raise .illegalCommand s := by
  simp [wordState, hf, hd]

theorem wordState_command {s : State} {w : Word} {c : Command} (hf : s.fault = false)
    (hd : decodeCommand w = .ok c) : wordState w s = commandState s c := by
  simp [wordState, hf, hd]

/-- A word the decoder rejects before it reads STRATEGY has a reserved opcode or a reserved bit. -/
theorem rejectCommand_of_decodeCommand {s : State} {w : Word} {r : Reject} (hf : s.fault = false)
    (hd : decodeCommand w = .error r) : rejectCommand r s = raise .illegalCommand s := by
  cases r with
  | reservedOpcode | reservedBits => simp [rejectCommand, hf]
  | badStrategyTag t =>
    simp only [decodeCommand] at hd
    repeat' split at hd
    all_goals cases hd

/-- Running the operation a command selects, or rejecting its tag, leaves `commandState`. -/
theorem run_selectVariant {s : State} (c : Command) (hf : s.fault = false) :
    (∃ i, selectVariant s.strategy c = .ok i ∧ exec i s = .next (commandState s c)) ∨
      (∃ r, selectVariant s.strategy c = .error r ∧ rejectCommand r s = commandState s c) := by
  cases c with
  | configure t f =>
    cases ht : Strategy.ofTag t with
    | none =>
      refine .inr ⟨.badStrategyTag t, by simp [selectVariant, ht], ?_⟩
      simp [rejectCommand, underConfigure, commandState, hf, ht]
    | some m =>
      refine .inl ⟨configureVariant f m, by simp [selectVariant, ht], ?_⟩
      rw [exec_configureVariant]
      cases hc : s.configured <;>
        simp [configureAs, underConfigure, commandState, performed_configureVariant, hf, hc, ht]
  | predict pc =>
    refine .inl ⟨predictVariant pc s.strategy, rfl, ?_⟩
    rw [exec_predictVariant]
    cases hc : s.configured <;> simp [underStrategy, commandState, hf, hc]
  | train pc o =>
    refine .inl ⟨trainVariant pc o s.strategy, rfl, ?_⟩
    rw [exec_trainVariant]
    cases hc : s.configured <;> simp [underStrategy, commandState, hf, hc]

/-- One step on a presented word (60_exceptions.md R239). -/
theorem step_eq_wordState {s : State} {w : Word} {rest : List Word} (hw : s.cmds = w :: rest) :
    step s = .next (wordState w { s with cmds := rest }) := by
  set s' : State := { s with cmds := rest } with hs'
  cases hf : s'.fault with
  | true =>
    rw [wordState_faulted w hf]
    have hf' : s.fault = true := hf
    rcases step_cases s w rest hw with ⟨-, h⟩ | ⟨h, -⟩ | ⟨h, -⟩
    · exact h
    · simp [hf'] at h
    · simp [hf'] at h
  | false =>
    simp only [step, takeCommand_cons s w rest hw, decode, ← hs']
    cases hd : decodeCommand w with
    | error r =>
      simp only [wordState_illegal hf hd, rejectCommand_of_decodeCommand hf hd]
    | ok c =>
      rw [wordState_command hf hd]
      rcases run_selectVariant c hf with ⟨i, hi, h⟩ | ⟨r, hr, h⟩
      · simp only [hi, h]
      · simp only [hr, h]

/-- A step that answers a next state took the word presented first. -/
theorem step_next {s t : State} (h : step s = .next t) :
    ∃ w rest, s.cmds = w :: rest ∧ t = wordState w { s with cmds := rest } := by
  cases hw : s.cmds with
  | nil => rw [step_nil s hw] at h; cases h
  | cons w rest =>
    rw [step_eq_wordState hw] at h
    cases h
    exact ⟨w, rest, rfl, rfl⟩

/-- Everything a step that answers a next state can do, where `u` is the state after taking the word. -/
theorem step_next_cases {s t : State} (h : step s = .next t) :
    ∃ rest, let u : State := { s with cmds := rest }
      (u.fault = true ∧ t = answerFaulted u) ∨ (u.fault = false ∧ ∃ c, t = raise c u) ∨
        (u.fault = false ∧ ∃ i, Performable i u ∧ t = performed i u) := by
  obtain ⟨w, rest, hw, -⟩ := step_next h
  refine ⟨rest, ?_⟩
  rcases step_cases s w rest hw with ⟨hf, hs⟩ | ⟨hf, c, hs⟩ | ⟨hf, i, -, hp, hs⟩
  · exact .inl ⟨hf, Host.Outcome.next.inj (h.symm.trans hs)⟩
  · exact .inr (.inl ⟨hf, c, Host.Outcome.next.inj (h.symm.trans hs)⟩)
  · exact .inr (.inr ⟨hf, i, hp, Host.Outcome.next.inj (h.symm.trans hs)⟩)

end Sys2Proof.Machine
end

