-- ==== Sys2Proof/Proofs/Runs.lean ====
section
/-! PROOF. Runs of several steps: the two inductions over the number of steps, once. -/

namespace Sys2Proof.Machine

open Sys2Proof.Claims

@[simp] theorem runSteps_zero (s : State) : runSteps 0 s = .next s := rfl

theorem runSteps_succ {s u : State} (k : Nat) (h : step s = .next u) :
    runSteps (k + 1) s = runSteps k u := by
  have hu : Sys2Proof.core.step s = .next u := h
  simp only [runSteps, Host.Core.run, hu]
  rfl

theorem runSteps_succ_next {k : Nat} {s t : State} (h : runSteps (k + 1) s = .next t) :
    ∃ u, step s = .next u ∧ runSteps k u = .next t := by
  simp only [runSteps, Host.Core.run] at h
  split at h
  · next u hu => exact ⟨u, hu, h⟩
  · cases h
  · cases h

/-- What every step keeps, every run keeps. -/
theorem runSteps_keeps {P : State → Prop} (hstep : ∀ u v, P u → step u = .next v → P v) (k : Nat)
    (s t : State) (hs : P s) (h : runSteps k s = .next t) : P t := by
  induction k generalizing s with
  | zero => cases h; exact hs
  | succ k ih =>
    obtain ⟨u, hu, ht⟩ := runSteps_succ_next h
    exact ih u (hstep s u hs hu) ht

/-- A relation that every pair of steps keeps, every pair of runs keeps. -/
theorem runSteps_simulates {R : State → State → Prop}
    (hstep : ∀ u v u', R u v → step u = .next u' → ∃ v', step v = .next v' ∧ R u' v') (k : Nat)
    (s t s' : State) (hr : R s t) (h : runSteps k s = .next s') :
    ∃ t', runSteps k t = .next t' ∧ R s' t' := by
  induction k generalizing s t with
  | zero => cases h; exact ⟨t, rfl, hr⟩
  | succ k ih =>
    obtain ⟨u, hu, hs'⟩ := runSteps_succ_next h
    obtain ⟨v, hv, hR⟩ := hstep s t u hr hu
    obtain ⟨t', ht', hR'⟩ := ih u v hR hs'
    exact ⟨t', (runSteps_succ k hv).trans ht', hR'⟩

end Sys2Proof.Machine
end

