-- ==== Sys2Proof/Proofs/Configuration.lean ====
section
/-! PROOF. The control and parameter registers are written by a CONFIGURE of an unconfigured block and
by nothing else, so they stay for the rest of a lifetime (10_state.md R21, R23, R24, R39(d)). -/

namespace Sys2Proof.Machine

/-- Settles O10: an answer and a fault write no such register, and of the performed operations only a
CONFIGURE of an unconfigured block does. -/
theorem onlyConfigureWritesControlRegisters : Obligations.OnlyConfigureWritesControlRegisters := by
  intro i s t h
  rcases exec_cases i s with ⟨-, he⟩ | ⟨-, c, he⟩ | ⟨hf, hp, he⟩ | ⟨-, -, -, he⟩
  · cases he.symm.trans h
    exact ⟨⟨rfl, rfl⟩, .inl ⟨rfl, rfl, rfl⟩⟩
  · cases he.symm.trans h
    exact ⟨⟨rfl, rfl⟩, .inl ⟨rfl, rfl, rfl⟩⟩
  · cases he.symm.trans h
    obtain ⟨hcmds, hbuild, -⟩ := performed_frame i s
    refine ⟨⟨hcmds, hbuild⟩, (performed_configuration hp).imp id ?_⟩
    exact fun ⟨hm, hc⟩ => ⟨hm, hf, hc, performed_configured hp⟩
  · cases he.symm.trans h

/-- A step of a configured block keeps the control and parameter registers. -/
theorem step_configuration {s t : State} (hc : s.configured = true) (h : step s = .next t) :
    t.configured = true ∧ t.strategy = s.strategy ∧ t.sizes = s.sizes := by
  obtain ⟨rest, ⟨-, rfl⟩ | ⟨-, c, rfl⟩ | ⟨-, i, hp, rfl⟩⟩ := step_next_cases h
  · exact ⟨hc, rfl, rfl⟩
  · exact ⟨hc, rfl, rfl⟩
  · rcases performed_configuration hp with ⟨hc', hm, hsz⟩ | ⟨-, hc'⟩
    · exact ⟨hc'.trans hc, hm, hsz⟩
    · exact absurd (hc.symm.trans hc') (by decide)

/-- Settles O48, by induction along the run. -/
theorem configurationIsFixedForTheLifetime : Obligations.ConfigurationIsFixedForTheLifetime := by
  intro k s t hc h
  refine runSteps_keeps
    (P := fun u => u.configured = true ∧ u.strategy = s.strategy ∧ u.sizes = s.sizes)
    (fun u v hu huv => ?_) k s t ⟨hc, rfl, rfl⟩ h
  obtain ⟨huc, hum, hus⟩ := hu
  obtain ⟨hvc, hvm, hvs⟩ := step_configuration huc huv
  exact ⟨hvc, hvm.trans hum, hvs.trans hus⟩

end Sys2Proof.Machine
end

