-- ==== Sys2Proof/Proofs/Invariant.lean ====
section
/-! PROOF. The invariant: it holds after power-on, and every part of every operation keeps it
(10_state.md R39). -/

namespace Sys2Proof.Machine

/-- Settles O46: every table of the reset state is empty and its registers are 0. -/
theorem invHoldsAfterPowerOn : Obligations.InvHoldsAfterPowerOn where
  build := ⟨by decide, by decide, ⟨13, by decide, by decide⟩, by decide, by decide⟩
  tables := Memory.wf_reset
  healthy := fun _ => ⟨rfl, rfl⟩
  faulted := fun h => by cases h
  taken := fun h => by cases h
  sizes := fun h => by cases h
  globalRange := fun h => by cases h
  localRange := fun h => by cases h
  chooserRange := fun h => by cases h
  bankRange := fun h => by cases h
  scratch := fun h => by cases h

/-! ## The response, fault entry and the command port -/

/-- The driver's words are no part of the invariant. -/
theorem MachineInv.withCmds {s : State} (h : MachineInv s) (ws : List Word) :
    MachineInv { s with cmds := ws } := { h with }

/-- A command that completes in a block without a fault answers STATUS 0 (30_encoding.md R90). -/
theorem MachineInv.complete {s : State} (h : MachineInv s) (hf : s.fault = false) (taken : Bool) :
    MachineInv (respond 0 taken s) :=
  { h with
    healthy := fun _ => ⟨(h.healthy hf).1, rfl⟩
    faulted := fun hf' => absurd (hf.symm.trans hf') (by decide)
    taken := fun _ => rfl }

/-- A faulted block answers its cause (60_exceptions.md R242). -/
theorem MachineInv.answerFaulted {s : State} (h : MachineInv s) (hf : s.fault = true) :
    MachineInv (answerFaulted s) :=
  { h with
    healthy := fun hf' => absurd (hf.symm.trans hf') (by decide)
    faulted := fun _ => by
      obtain ⟨hlo, hhi, -⟩ := h.faulted hf
      exact ⟨hlo, hhi, rfl⟩
    taken := fun ht => by cases ht }

/-- The codes of the causes (60_exceptions.md R231). -/
theorem Cause.code_range (c : Cause) : 1 ≤ c.code.toNat ∧ c.code.toNat ≤ 6 := by
  cases c <;> decide

/-- Fault entry (60_exceptions.md R240). -/
theorem MachineInv.raise {s : State} (h : MachineInv s) (c : Cause) : MachineInv (raise c s) :=
  { h with
    healthy := fun hf => by cases hf
    faulted := fun _ => ⟨c.code_range.1, c.code_range.2, rfl⟩
    taken := fun ht => by cases ht }

/-! ## CONFIGURE -/

/-- The data state that exists under `m` has its reset values (10_state.md R40). -/
structure FreshData (m : Strategy) (s : State) : Prop where
  globalEmpty : hasGlobal m = true → s.ghr = 0 ∧ s.pht = []
  localEmpty : hasLocal m = true → s.lht = [] ∧ s.lpt = []
  chooserEmpty : m = .tournament → s.ch = []
  bankEmpty : m = .custom → s.h = 0 ∧ s.w = [] ∧ s.b = [] ∧ s.scV = false

/-- CONFIGURE leaves the data state of its strategy fresh (46_facade.md R205 to R209). -/
theorem freshData_initData (m : Strategy) (s : State) : FreshData m (initData m s) := by
  cases m <;> constructor <;> simp [hasGlobal, hasLocal, initData]

theorem MachineInv.initGlobal {s : State} (h : MachineInv s) : MachineInv (initGlobal s) :=
  { h with
    tables := Memory.wf_initGlobal h.tables
    globalRange := fun _ _ => ⟨Nat.two_pow_pos _, rfl⟩ }

theorem MachineInv.initLocal {s : State} (h : MachineInv s) : MachineInv (initLocal s) :=
  { h with
    tables := Memory.wf_initLocal h.tables
    localRange := fun _ _ => ⟨by simp, rfl⟩ }

theorem MachineInv.initChooser {s : State} (h : MachineInv s) : MachineInv (initChooser s) :=
  { h with
    tables := Memory.wf_initChooser h.tables
    chooserRange := fun _ _ => rfl }

theorem MachineInv.initPerceptron {s : State} (h : MachineInv s) : MachineInv (initPerceptron s) :=
  { h with
    tables := Memory.wf_initPerceptron h.tables
    bankRange := fun _ _ => ⟨Nat.two_pow_pos _, rfl, by simp⟩
    scratch := fun _ _ hv => by cases hv }

theorem MachineInv.initData {s : State} (h : MachineInv s) (m : Strategy) :
    MachineInv (initData m s) := by
  cases m with
  | static => exact h
  | gshare => exact h.initGlobal
  | localHist => exact h.initLocal
  | tournament => exact h.initGlobal.initLocal.initChooser
  | custom => exact h.initPerceptron

/-- Legal fields latched over fresh data state: every range starts anew for the new sizes. -/
theorem MachineInv.latchConfiguration {m : Strategy} {f : SizeFields} {s : State}
    (h : MachineInv s) (hfresh : FreshData m s) (hl : sizesLegal s.build m f = true) :
    MachineInv (latchConfiguration m f s) :=
  { h with
    sizes := fun _ => hl
    globalRange := fun _ hm => by
      obtain ⟨hghr, hpht⟩ := hfresh.globalEmpty hm
      simp [hghr, hpht]
    localRange := fun _ hm => by
      obtain ⟨hlht, hlpt⟩ := hfresh.localEmpty hm
      simp [hlht, hlpt]
    chooserRange := fun _ hm => by simp [hfresh.chooserEmpty hm]
    bankRange := fun _ hm => by
      obtain ⟨hh, hw, hb, -⟩ := hfresh.bankEmpty hm
      simp [hh, hw, hb]
    scratch := fun _ hm hv => by
      obtain ⟨-, -, -, hv'⟩ := hfresh.bankEmpty hm
      exact absurd (hv'.symm.trans hv) (by decide) }

theorem initData_build (m : Strategy) (s : State) : (initData m s).build = s.build := by
  cases m <;> rfl

/-! ## PREDICT -/

/-- A PREDICT records the sum it just formed (45_perceptron.md R179). -/
theorem MachineInv.predictData {s : State} (h : MachineInv s) (pc : Pc) (m : Strategy) :
    MachineInv (predictData pc s m) := by
  cases m with
  | custom => exact { h with scratch := fun _ _ _ => ⟨rfl, rfl⟩ }
  | static | gshare | localHist | tournament => exact h

/-! ## TRAIN -/

theorem MachineInv.globalTrain {s : State} (h : MachineInv s) (pc : Pc) (o : Bool) :
    MachineInv (globalTrain pc o s) :=
  { h with
    tables := Memory.wf_globalTrain pc o h.tables
    globalRange := fun hc hm =>
      ⟨toNat_shin_lt _ _ _, Table.below_write _ _ _ _ _ (h.globalRange hc hm).2 (gidx_lt pc s)⟩ }

theorem MachineInv.localTrain {s : State} (h : MachineInv s) (pc : Pc) (o : Bool) :
    MachineInv (localTrain pc o s) :=
  { h with
    tables := Memory.wf_localTrain pc o h.tables
    localRange := fun hc hm => by
      obtain ⟨hlht, hlpt⟩ := h.localRange hc hm
      refine ⟨fun e he => ?_, Table.below_write _ _ _ _ _ hlpt (hidx_lt pc s)⟩
      rcases Table.mem_write _ _ _ _ e he with rfl | he
      · exact ⟨aidx_lt pc s, toNat_shin_lt _ _ _⟩
      · exact hlht e he }

theorem MachineInv.writeCh {s : State} (h : MachineInv s) {i : Nat} (hi : i < 2 ^ s.p.toNat)
    (v : Counter) : MachineInv (writeCh i v s) :=
  { h with
    tables := Memory.wf_writeCh i v h.tables
    chooserRange := fun hc hm => Table.below_write _ _ _ _ _ (h.chooserRange hc hm) hi }

theorem MachineInv.chooserTrain {s : State} (h : MachineInv s) (pc : Pc) (o : Bool) :
    MachineInv (chooserTrain pc o s) := by
  by_cases hd : globalPredict pc s = localPredict pc s
  · rw [chooserTrain_of_agree pc o s hd]; exact h
  · rw [chooserTrain_of_disagree pc o s hd]; exact h.writeCh (cidx_lt pc s) _

/-- Every element that training a row lists was listed before or is one of the row. -/
theorem mem_trainRow (p : Nat) (h : FeatureHist) (o : Bool) (n : Nat) (t : Table Weight) :
    ∀ e ∈ trainRow p h o n t, e ∈ t ∨ ∃ i, i < n ∧ e.1 = weightIndex p i := by
  induction n with
  | zero => exact fun e he => .inl he
  | succ n ih =>
    intro e he
    rcases Table.mem_write _ _ _ _ e he with rfl | he
    · exact .inr ⟨n, Nat.lt_succ_self n, rfl⟩
    · exact (ih e he).imp id fun ⟨i, hi, he⟩ => ⟨i, Nat.lt_succ_of_lt hi, he⟩

/-- A configured perceptron bank has a row (46_facade.md R210). -/
theorem MachineInv.one_le_np {s : State} (h : MachineInv s) (hc : s.configured = true)
    (hm : s.strategy = .custom) : 1 ≤ s.np.toNat := by
  have hl := h.sizes hc
  simp only [hm, sizesLegal, Bool.and_eq_true, decide_eq_true_eq, and_assoc] at hl
  exact hl.1

/-- The row of an unconsumed record is a row of the bank. -/
theorem MachineInv.scIdx_lt {s : State} (h : MachineInv s) (hc : s.configured = true)
    (hm : s.strategy = .custom) (hv : s.scV = true) : s.scIdx.toNat < s.np.toNat := by
  rw [(h.scratch hc hm hv).1]
  exact pidx_lt s.scPc s (h.one_le_np hc hm)

/-- A TRAIN with an unconsumed record writes the recorded row only, which is one of the bank, and
consumes the record (45_perceptron.md R184). -/
theorem MachineInv.perceptronTrain {s : State} (h : MachineInv s) (hv : s.scV = true) (o : Bool) :
    MachineInv (perceptronTrain o s) := by
  have hwf := Memory.wf_perceptronTrain o h.tables
  rw [perceptronTrain_eq] at hwf ⊢
  refine { h with
    tables := hwf
    bankRange := fun hc hm => ?_
    scratch := fun _ _ hv' => by cases hv' }
  obtain ⟨-, hb, hw⟩ := h.bankRange hc hm
  have hrow := h.scIdx_lt hc hm hv
  refine ⟨toNat_shin_lt _ _ _, ?_, ?_⟩
  · dsimp only
    split
    · exact Table.below_write _ _ _ _ _ hb hrow
    · exact hb
  · dsimp only
    split
    · intro e he
      rcases mem_trainRow _ _ _ _ _ e he with he | ⟨i, hi, he⟩
      · exact hw e he
      · exact ⟨_, i, hrow, hi, he⟩
    · exact hw

theorem MachineInv.trainData {s : State} (h : MachineInv s) (pc : Pc) (o : Bool) {m : Strategy}
    (hv : m = .custom → s.scV = true) : MachineInv (trainData pc o s m) := by
  cases m with
  | static => exact h
  | gshare => exact h.globalTrain pc o
  | localHist => exact h.localTrain pc o
  | tournament => exact ((h.chooserTrain pc o).globalTrain pc o).localTrain pc o
  | custom => exact h.perceptronTrain (hv rfl) o

/-! ## Every step -/

theorem scV_of_paired {pc : Pc} {s : State} (h : paired pc s = true) : s.scV = true := by
  simp only [paired, Bool.and_eq_true] at h
  exact h.1

/-- A performed operation keeps the invariant. -/
theorem MachineInv.performed {s : State} {i : Instr} (h : MachineInv s) (hf : s.fault = false)
    (hp : Performable i s) : MachineInv (performed i s) := by
  obtain ⟨-, -, hfault, -⟩ := performed_frame i s
  have hf' := hfault.trans hf
  rcases instr_variants i with ⟨f, m, rfl⟩ | ⟨pc, m, rfl⟩ | ⟨pc, o, m, rfl⟩
  · rw [performed_configureVariant] at hf' ⊢
    have hl := (performable_configureVariant.1 hp).2
    exact ((h.initData m).latchConfiguration (freshData_initData m s)
      (initData_build m s ▸ hl)).complete hf' false
  · rw [performed_predictVariant] at hf' ⊢
    exact (h.predictData pc m).complete hf' _
  · rw [performed_trainVariant] at hf' ⊢
    obtain ⟨-, -, hpair⟩ := performable_trainVariant.1 hp
    exact (h.trainData pc o fun hm => scV_of_paired (hpair hm)).complete hf' false

/-- Settles O47: a step answers as a faulted block, raises a fault or performs an operation, and each
keeps the invariant. -/
theorem stepKeepsInv : Obligations.StepKeepsInv := by
  intro s t h hst
  obtain ⟨rest, ⟨hf, rfl⟩ | ⟨-, c, rfl⟩ | ⟨hf, i, hp, rfl⟩⟩ := step_next_cases hst
  · exact (h.withCmds rest).answerFaulted hf
  · exact (h.withCmds rest).raise c
  · exact (h.withCmds rest).performed hf hp

end Sys2Proof.Machine
end

