-- ==== Sys2Proof/Proofs/Visibility.lean ====
section
/-! PROOF. What the strategy does not have is never read: two states that look alike answer every word
alike and go on looking alike (10_state.md R34, R40; 46_facade.md R212). -/

namespace Sys2Proof.Machine

/-! ## What each predictor reads -/

/-- Global.predict reads G, GHR and PHT (42_gshare.md R130, R131). -/
theorem globalPredict_congr {s t : State} (pc : Pc) (hg : s.g = t.g) (hghr : s.ghr = t.ghr)
    (hpht : s.pht = t.pht) : globalPredict pc s = globalPredict pc t := by
  simp only [globalPredict, readPht, gidx, hg, hghr, hpht]

/-- Local.predict reads L, P, LHT and LPT (43_local.md R145 to R147). -/
theorem localPredict_congr {s t : State} (pc : Pc) (hl : s.l = t.l) (hp : s.p = t.p)
    (hlht : s.lht = t.lht) (hlpt : s.lpt = t.lpt) : localPredict pc s = localPredict pc t := by
  simp only [localPredict, readLpt, hidx, readLht, aidx, hl, hp, hlht, hlpt]

/-- The row of a pc is read from NP (45_perceptron.md R176). -/
theorem pidx_congr {s t : State} (pc : Pc) (hnp : s.np = t.np) : pidx pc s = pidx pc t := by
  simp only [pidx, hnp]

/-- The sum reads NW, H, W and B (45_perceptron.md R178). -/
theorem ysum_congr {s t : State} (p : Nat) (hnw : s.nw = t.nw) (hh : s.h = t.h) (hw : s.w = t.w)
    (hb : s.b = t.b) : ysum s p = ysum t p := by
  simp only [ysum, readB, hnw, hh, hw, hb]

/-- Global.train reads what Global.predict reads (42_gshare.md R132). -/
theorem globalTrain_congr {s t : State} (pc : Pc) (o : Bool) (hg : s.g = t.g)
    (hghr : s.ghr = t.ghr) (hpht : s.pht = t.pht) :
    (globalTrain pc o s).ghr = (globalTrain pc o t).ghr ∧
      (globalTrain pc o s).pht = (globalTrain pc o t).pht := by
  simp only [globalTrain_eq, readPht, gidx, hg, hghr, hpht, and_self]

/-- Local.train reads what Local.predict reads (43_local.md R148). -/
theorem localTrain_congr {s t : State} (pc : Pc) (o : Bool) (hl : s.l = t.l) (hp : s.p = t.p)
    (hlht : s.lht = t.lht) (hlpt : s.lpt = t.lpt) :
    (localTrain pc o s).lht = (localTrain pc o t).lht ∧
      (localTrain pc o s).lpt = (localTrain pc o t).lpt := by
  simp only [localTrain_eq, readLpt, hidx, readLht, aidx, hl, hp, hlht, hlpt, and_self]

/-- The chooser update reads P, CH, its reset value and the two predictions (44_tournament.md R163). -/
theorem chooserTrain_congr {s t : State} (pc : Pc) (o : Bool) (hb : s.build = t.build)
    (hp : s.p = t.p) (hch : s.ch = t.ch) (hgp : globalPredict pc s = globalPredict pc t)
    (hlp : localPredict pc s = localPredict pc t) :
    (chooserTrain pc o s).ch = (chooserTrain pc o t).ch := by
  by_cases hd : globalPredict pc s = localPredict pc s
  · have hd' : globalPredict pc t = localPredict pc t := hgp ▸ hlp ▸ hd
    rw [chooserTrain_of_agree pc o s hd, chooserTrain_of_agree pc o t hd', hch]
  · have hd' : globalPredict pc t ≠ localPredict pc t := hgp ▸ hlp ▸ hd
    rw [chooserTrain_of_disagree pc o s hd, chooserTrain_of_disagree pc o t hd']
    simp only [writeCh_ch, readCh, cidx, hb, hp, hch, hgp]

/-! ## The data state of the active strategy -/

section
variable {m : Strategy} {s t : State}

theorem sameData_respond (hd : SameData m s t) (c : Status) (x y : Bool) :
    SameData m (respond c x s) (respond c y t) := by
  cases m <;> exact hd

/-- Data state at its reset values, with the same fields latched, is the same data state. -/
theorem sameData_of_fresh (f : SizeFields) (hs : FreshData m s) (ht : FreshData m t) :
    SameData m (latchConfiguration m f s) (latchConfiguration m f t) := by
  have hg (h : hasGlobal m = true) : s.ghr = t.ghr ∧ s.pht = t.pht := by
    simp [hs.globalEmpty h, ht.globalEmpty h]
  have hl (h : hasLocal m = true) : s.lht = t.lht ∧ s.lpt = t.lpt := by
    simp [hs.localEmpty h, ht.localEmpty h]
  cases m with
  | static => trivial
  | gshare => exact ⟨rfl, (hg rfl).1, (hg rfl).2⟩
  | localHist => exact ⟨rfl, rfl, (hl rfl).1, (hl rfl).2⟩
  | tournament =>
    have hch : s.ch = t.ch := (hs.chooserEmpty rfl).trans (ht.chooserEmpty rfl).symm
    exact ⟨rfl, (hg rfl).1, (hg rfl).2, rfl, rfl, (hl rfl).1, (hl rfl).2, hch⟩
  | custom => simp [SameData, hs.bankEmpty rfl, ht.bankEmpty rfl]

theorem predictTaken_congr (pc : Pc) (hb : s.build = t.build) (hd : SameData m s t) :
    predictTaken pc s m = predictTaken pc t m := by
  cases m with
  | static => exact congrArg BuildParams.staticDir hb
  | gshare =>
    obtain ⟨hg, hghr, hpht⟩ := hd
    exact globalPredict_congr pc hg hghr hpht
  | localHist =>
    obtain ⟨hl, hp, hlht, hlpt⟩ := hd
    exact localPredict_congr pc hl hp hlht hlpt
  | tournament =>
    obtain ⟨hg, hghr, hpht, hl, hp, hlht, hlpt, hch⟩ := hd
    have hread : readCh s (cidx pc s) = readCh t (cidx pc t) := by
      simp only [readCh, cidx, hb, hp, hch]
    rw [predictTaken, predictTaken, arbiterPredict, arbiterPredict, hread,
      globalPredict_congr pc hg hghr hpht, localPredict_congr pc hl hp hlht hlpt]
  | custom =>
    obtain ⟨hnp, hnw, -, hh, hw, hbias, -⟩ := hd
    simp only [predictTaken, pidx_congr pc hnp, ysum_congr _ hnw hh hw hbias]

theorem sameData_predictData (pc : Pc) (hd : SameData m s t) :
    SameData m (predictData pc s m) (predictData pc t m) := by
  cases m with
  | custom =>
    obtain ⟨hnp, hnw, hth, hh, hw, hbias, -⟩ := hd
    have hrow := pidx_congr pc hnp
    have hy : ysum s (pidx pc s).toNat = ysum t (pidx pc t).toNat :=
      hrow ▸ ysum_congr _ hnw hh hw hbias
    exact ⟨hnp, hnw, hth, hh, hw, hbias, rfl, fun _ => ⟨rfl, hrow, hy⟩⟩
  | static | gshare | localHist | tournament => exact hd

theorem sameData_trainData (pc : Pc) (o : Bool) (hb : s.build = t.build) (hd : SameData m s t)
    (hv : m = .custom → s.scV = true) : SameData m (trainData pc o s m) (trainData pc o t m) := by
  cases m with
  | static => trivial
  | gshare =>
    obtain ⟨hg, hghr, hpht⟩ := hd
    exact ⟨hg, globalTrain_congr pc o hg hghr hpht⟩
  | localHist =>
    obtain ⟨hl, hp, hlht, hlpt⟩ := hd
    exact ⟨hl, hp, localTrain_congr pc o hl hp hlht hlpt⟩
  | tournament =>
    obtain ⟨hg, hghr, hpht, hl, hp, hlht, hlpt, hch⟩ := hd
    obtain ⟨hghr', hpht'⟩ := globalTrain_congr pc o hg hghr hpht
    obtain ⟨hlht', hlpt'⟩ := localTrain_congr pc o hl hp hlht hlpt
    have hch' := chooserTrain_congr pc o hb hp hch (globalPredict_congr pc hg hghr hpht)
      (localPredict_congr pc hl hp hlht hlpt)
    simp only [trainData, arbiterTrain_eq]
    exact ⟨hg, hghr', hpht', hl, hp, hlht', hlpt', hch'⟩
  | custom =>
    obtain ⟨hnp, hnw, hth, hh, hw, hbias, -, hsc⟩ := hd
    obtain ⟨-, hrow, hy⟩ := hsc (hv rfl)
    simp [trainData, perceptronTrain_eq, SameData, readB, hnp, hnw, hth, hh, hw, hbias, hrow, hy]

/-- The pairing check reads SC while SC.V = 1 (45_perceptron.md R185). -/
theorem paired_congr (pc : Pc) (hd : SameData .custom s t) : paired pc s = paired pc t := by
  obtain ⟨-, -, -, -, -, -, hv, hsc⟩ := hd
  cases h : s.scV with
  | false => simp [paired, ← hv, h]
  | true => simp [paired, ← hv, h, (hsc h).1]

end

/-! ## The visible part of the state -/

section
variable {s t : State}

theorem SameVisible.withCmds (h : SameVisible s t) (ws : List Word) :
    SameVisible { s with cmds := ws } { t with cmds := ws } :=
  { h with cmds := rfl, data := fun hc => h.data hc }

theorem SameVisible.answerFaulted (h : SameVisible s t) :
    SameVisible (answerFaulted s) (answerFaulted t) :=
  { h with
    rspTaken := rfl, rspStatus := h.cause
    data := fun hc => h.data hc }

theorem SameVisible.raise (h : SameVisible s t) (c : Cause) :
    SameVisible (raise c s) (raise c t) :=
  { h with
    fault := rfl, cause := rfl, rspTaken := rfl, rspStatus := rfl
    data := fun hc => h.data hc }

/-- An operation performed by both leaves the same STRATEGY, prediction and data state in both. -/
theorem performed_congr {i : Instr} (h : SameVisible s t) (hs : Performable i s)
    (ht : Performable i t) :
    (performed i s).rspTaken = (performed i t).rspTaken ∧
      (performed i s).strategy = (performed i t).strategy ∧
      SameData (performed i s).strategy (performed i s) (performed i t) := by
  rcases instr_variants i with ⟨f, m, rfl⟩ | ⟨pc, m, rfl⟩ | ⟨pc, o, m, rfl⟩
  · simp only [performed_configureVariant]
    exact ⟨rfl, rfl, sameData_respond
      (sameData_of_fresh f (freshData_initData m s) (freshData_initData m t)) _ _ _⟩
  · obtain ⟨hc, rfl⟩ := performable_predictVariant.1 hs
    obtain ⟨-, hms, -⟩ := predictData_configuration pc s s.strategy
    obtain ⟨-, hmt, -⟩ := predictData_configuration pc t s.strategy
    simp only [performed_predictVariant, respond_rspTaken, respond_strategy, hms, hmt]
    exact ⟨predictTaken_congr pc h.build (h.data hc), h.strategy hc,
      sameData_respond (sameData_predictData pc (h.data hc)) _ _ _⟩
  · obtain ⟨hc, rfl, hpair⟩ := performable_trainVariant.1 hs
    obtain ⟨-, hms, -⟩ := trainData_configuration pc o s s.strategy
    obtain ⟨-, hmt, -⟩ := trainData_configuration pc o t s.strategy
    simp only [performed_trainVariant, respond_rspTaken, respond_strategy, hms, hmt]
    exact ⟨trivial, h.strategy hc, sameData_respond
      (sameData_trainData pc o h.build (h.data hc) fun hm => scV_of_paired (hpair hm)) _ _ _⟩

theorem SameVisible.performed {i : Instr} (h : SameVisible s t) (hs : Performable i s)
    (ht : Performable i t) : SameVisible (performed i s) (performed i t) := by
  obtain ⟨hcmds, hbuild, hfault, hcause, hstatus⟩ := performed_frame i s
  obtain ⟨hcmds', hbuild', hfault', hcause', hstatus'⟩ := performed_frame i t
  obtain ⟨htaken, hstrategy, hdata⟩ := performed_congr h hs ht
  exact {
    build := by rw [hbuild, hbuild', h.build]
    cmds := by rw [hcmds, hcmds', h.cmds]
    configured := by rw [performed_configured hs, performed_configured ht]
    fault := by rw [hfault, hfault', h.fault]
    cause := by rw [hcause, hcause', h.cause]
    rspTaken := htaken
    rspStatus := by rw [hstatus, hstatus']
    strategy := fun _ => hstrategy
    data := fun _ => hdata }

/-- A command leaves blocks that look alike looking alike: the checks read nothing else, and STRATEGY
only when the block is configured (60_exceptions.md R239). -/
theorem SameVisible.commandState (h : SameVisible s t) (c : Command) :
    SameVisible (commandState s c) (commandState t c) := by
  have hct {x : Bool} (hc : s.configured = x) : t.configured = x := h.configured ▸ hc
  cases c with
  | configure tag f =>
    simp only [Machine.commandState, ← h.configured, ← h.build]
    split
    · exact h.raise _
    · next hc =>
      have hc : s.configured = false := by simpa using hc
      split
      · exact h.raise _
      · split
        · next m _ hl =>
          exact h.performed (performable_configureVariant.2 ⟨hc, hl⟩)
            (performable_configureVariant.2 ⟨hct hc, h.build ▸ hl⟩)
        · exact h.raise _
  | predict pc =>
    simp only [Machine.commandState, ← h.configured]
    split
    · next hc =>
      rw [← h.strategy hc]
      exact h.performed (performable_predictVariant.2 ⟨hc, rfl⟩)
        (performable_predictVariant.2 ⟨hct hc, (h.strategy hc).symm⟩)
    · exact h.raise _
  | train pc o =>
    simp only [Machine.commandState, ← h.configured]
    split
    · next hc =>
      have hpair (hm : s.strategy = .custom) : paired pc s = paired pc t :=
        paired_congr pc (hm ▸ h.data hc)
      rw [← h.strategy hc]
      by_cases hun : s.strategy = .custom ∧ paired pc s = false
      · rw [if_pos hun, if_pos ⟨hun.1, hpair hun.1 ▸ hun.2⟩]
        exact h.raise _
      · have hs (hm : s.strategy = .custom) : paired pc s = true := by
          simpa [hm] using hun
        rw [if_neg hun, if_neg fun ht => hun ⟨ht.1, (hpair ht.1).trans ht.2⟩]
        exact h.performed (performable_trainVariant.2 ⟨hc, rfl, hs⟩)
          (performable_trainVariant.2
            ⟨hct hc, (h.strategy hc).symm, fun hm => hpair hm ▸ hs hm⟩)
    · exact h.raise _

theorem SameVisible.wordState (h : SameVisible s t) (w : Word) :
    SameVisible (wordState w s) (wordState w t) := by
  cases hf : s.fault with
  | true =>
    rw [wordState_faulted w hf, wordState_faulted w (h.fault ▸ hf)]
    exact h.answerFaulted
  | false =>
    cases hd : decodeCommand w with
    | error r =>
      rw [wordState_illegal hf hd, wordState_illegal (h.fault ▸ hf) hd]
      exact h.raise _
    | ok c =>
      rw [wordState_command hf hd, wordState_command (h.fault ▸ hf) hd]
      exact h.commandState c

end

/-- Settles O58: both blocks take the same word. -/
theorem stepCannotSeeAbsentState : Obligations.StepCannotSeeAbsentState := by
  intro s t s' h hs
  obtain ⟨w, rest, hw, rfl⟩ := step_next hs
  exact ⟨_, step_eq_wordState (h.cmds ▸ hw), (h.withCmds rest).wordState w⟩

/-- Settles O59: after power-on no strategy is visible, and steps cannot tell the two blocks apart. -/
theorem powerOnContentsAreNeverSeen : Obligations.PowerOnContentsAreNeverSeen := by
  intro k s t s' hbuild hcmds h
  refine runSteps_simulates stepCannotSeeAbsentState k (powerOn s) (powerOn t) s' ?_ h
  exact {
    build := hbuild, cmds := hcmds, configured := rfl, fault := rfl, cause := rfl
    rspTaken := rfl, rspStatus := rfl
    strategy := fun hc => by cases hc
    data := fun hc => by cases hc }

end Sys2Proof.Machine
end

