-- ==== Sys2Proof/Proofs/BranchRuns.lean ====
section
/-! PROOF. The driver's protocol as one transition per branch: PREDICT pc and then TRAIN pc, outcome, in a
running block (70_reset_and_hazards.md R262). -/

namespace Sys2Proof.Machine

open Sys2Proof.Claims

/-! ## The two words of a branch -/

section
variable (op : BitVec 4) (o : Bool) (pc : Pc)

/-- The bits of a format-B word (30_encoding.md R82). -/
theorem getLsbD_formatB (k : Nat) :
    (formatB op o pc).getLsbD k =
      if k < 32 then pc.getLsbD k else if k = 32 then o else if k < 60 then false
      else op.getLsbD (k - 60) := by
  simp only [formatB, BitVec.getLsbD_append, BitVec.getLsbD_zero, BitVec.getLsbD_ofBool]
  grind

theorem opField_formatB : opField (formatB op o pc) = op := by
  ext i hi
  rw [opField, BitVec.getElem_extractLsb', getLsbD_formatB, if_neg (by omega), if_neg (by omega),
    if_neg (by omega), Nat.add_sub_cancel_left, BitVec.getLsbD_eq_getElem]

theorem pcField_formatB : pcField (formatB op o pc) = pc := by
  ext i hi
  rw [pcField, BitVec.getElem_extractLsb', getLsbD_formatB, if_pos (by omega), Nat.zero_add,
    BitVec.getLsbD_eq_getElem]

theorem outcomeField_formatB : outcomeField (formatB op o pc) = o := getLsbD_formatB op o pc 32

theorem trainReserved_formatB : trainReserved (formatB op o pc) = 0 := by
  ext i hi
  rw [trainReserved, BitVec.getElem_extractLsb', getLsbD_formatB, if_neg (by omega),
    if_neg (by omega), if_pos (by omega)]
  simp

theorem predictReserved_formatB : predictReserved (formatB op false pc) = 0 := by
  ext i hi
  rw [predictReserved, BitVec.getElem_extractLsb', getLsbD_formatB, if_neg (by omega),
    if_pos (show 32 + i < 60 by omega), ite_self]
  simp

end

theorem decodeCommand_predictWord (pc : Pc) :
    decodeCommand (predictWord pc) = .ok (.predict pc) := by
  rw [show predictWord pc = formatB 0x2 false pc from rfl, decodeCommand, opField_formatB,
    predictReserved_formatB, pcField_formatB]
  rfl

theorem decodeCommand_trainWord (pc : Pc) (o : Bool) :
    decodeCommand (trainWord pc o) = .ok (.train pc o) := by
  rw [show trainWord pc o = formatB 0x3 o pc from rfl, decodeCommand, opField_formatB,
    trainReserved_formatB, pcField_formatB, outcomeField_formatB]
  rfl

/-! ## The driver's later words -/

/-- The state in which the driver presents the words `ws` next. -/
def withCmds (ws : List Word) (s : State) : State := { s with cmds := ws }

@[simp] theorem withCmds_cmds (ws : List Word) (s : State) : (withCmds ws s).cmds = ws := rfl

theorem withCmds_withCmds (vs ws : List Word) (s : State) :
    withCmds ws (withCmds vs s) = withCmds ws s := rfl

/-- A PREDICT does not read the driver's later words. -/
theorem performed_predictVariant_withCmds (pc : Pc) (m : Strategy) (ws : List Word) (s : State) :
    performed (predictVariant pc m) (withCmds ws s) =
      withCmds ws (performed (predictVariant pc m) s) := by
  cases m <;> rfl

/-- A TRAIN does not read the driver's later words. -/
theorem performed_trainVariant_withCmds (pc : Pc) (o : Bool) (m : Strategy) (ws : List Word)
    (s : State) : performed (trainVariant pc o m) (withCmds ws s) =
      withCmds ws (performed (trainVariant pc o m) s) := by
  simp only [performed_trainVariant]
  cases m with
  | static | gshare | localHist => rfl
  | tournament =>
    have hch : (chooserTrain pc o (withCmds ws s)).ch = (chooserTrain pc o s).ch :=
      chooserTrain_congr pc o rfl rfl rfl rfl rfl
    rw [trainData, trainData, arbiterTrain_eq, arbiterTrain_eq, hch]
    rfl
  | custom =>
    rw [trainData, trainData, perceptronTrain_eq, perceptronTrain_eq]
    rfl

/-! ## The steps of a branch -/

theorem step_predictWord {s : State} {pc : Pc} {rest : List Word} (hf : s.fault = false)
    (hc : s.configured = true) (hw : s.cmds = predictWord pc :: rest) :
    step s = .next (performed (predictVariant pc s.strategy) (withCmds rest s)) := by
  have hf' : (withCmds rest s).fault = false := hf
  rw [step_eq_wordState hw, ← withCmds, wordState_command hf' (decodeCommand_predictWord pc),
    commandState]
  exact congrArg _ (if_pos hc)

theorem step_trainWord {s : State} {m : Strategy} {pc : Pc} {o : Bool} {rest : List Word}
    (hf : s.fault = false) (hc : s.configured = true) (hm : s.strategy = m)
    (hpair : m = .custom → paired pc s = true) (hw : s.cmds = trainWord pc o :: rest) :
    step s = .next (performed (trainVariant pc o m) (withCmds rest s)) := by
  subst hm
  have hchk : ¬ (s.strategy = .custom ∧ paired pc s = false) := fun ⟨hm, hp⟩ =>
    absurd ((hpair hm).symm.trans hp) (by decide)
  have hf' : (withCmds rest s).fault = false := hf
  rw [step_eq_wordState hw, ← withCmds, wordState_command hf' (decodeCommand_trainWord pc o),
    commandState]
  exact congrArg _ ((if_pos hc).trans (if_neg hchk))

/-- The registers, histories and local histories that a PREDICT leaves alone. -/
theorem performed_predictVariant_frame (pc : Pc) (m : Strategy) (s : State) :
    let u := performed (predictVariant pc m) s
    u.configured = s.configured ∧ u.strategy = s.strategy ∧ u.sizes = s.sizes ∧
      u.ghr = s.ghr ∧ u.h = s.h ∧ u.lht = s.lht := by
  cases m <;> exact ⟨rfl, rfl, rfl, rfl, rfl, rfl⟩

/-- A PREDICT under CUSTOM pairs with the TRAIN of its pc (45_perceptron.md R185). -/
theorem paired_predictCustom (pc : Pc) (s : State) :
    paired pc (performed (predictVariant pc .custom) s) = true :=
  decide_eq_true rfl

/-- The state after a branch in a running block. -/
def branchState (s : State) (b : Pc × Bool) : State :=
  performed (trainVariant b.1 b.2 s.strategy) (performed (predictVariant b.1 s.strategy) s)

theorem branchState_withCmds (s : State) (b : Pc × Bool) (ws : List Word) :
    branchState (withCmds ws s) b = withCmds ws (branchState s b) := by
  rw [branchState, performed_predictVariant_withCmds, performed_trainVariant_withCmds]
  rfl

theorem branchState_frame (s : State) (b : Pc × Bool) :
    (branchState s b).cmds = s.cmds ∧ (branchState s b).fault = s.fault := by
  obtain ⟨hcmds, -, hfault, -⟩ := performed_frame (predictVariant b.1 s.strategy) s
  obtain ⟨hcmds', -, hfault', -⟩ := performed_frame (trainVariant b.1 b.2 s.strategy)
    (performed (predictVariant b.1 s.strategy) s)
  exact ⟨hcmds'.trans hcmds, hfault'.trans hfault⟩

theorem branchState_configuration (s : State) (b : Pc × Bool) :
    (branchState s b).configured = s.configured ∧ (branchState s b).strategy = s.strategy ∧
      (branchState s b).sizes = s.sizes := by
  obtain ⟨hc, hm, hsz, -⟩ := performed_predictVariant_frame b.1 s.strategy s
  obtain ⟨hc', hm', hsz'⟩ :=
    trainData_configuration b.1 b.2 (performed (predictVariant b.1 s.strategy) s) s.strategy
  rw [branchState, performed_trainVariant]
  exact ⟨hc'.trans hc, hm'.trans hm, hsz'.trans hsz⟩

/-- The two words of a branch take a running block to `branchState`. -/
theorem runSteps_branch {s : State} (b : Pc × Bool) {rest : List Word} (hf : s.fault = false)
    (hc : s.configured = true) (hw : s.cmds = predictWord b.1 :: trainWord b.1 b.2 :: rest)
    (k : Nat) : runSteps (k + 2) s = runSteps k (withCmds rest (branchState s b)) := by
  have hpredict := step_predictWord hf hc hw
  rw [performed_predictVariant_withCmds] at hpredict
  obtain ⟨-, -, hfault, -⟩ := performed_frame (predictVariant b.1 s.strategy) s
  obtain ⟨hconf, hm, -⟩ := performed_predictVariant_frame b.1 s.strategy s
  have hpair : s.strategy = .custom →
      paired b.1 (performed (predictVariant b.1 s.strategy) s) = true := fun h => by
    rw [h]; exact paired_predictCustom b.1 s
  have htrain := step_trainWord
    (s := withCmds (trainWord b.1 b.2 :: rest) (performed (predictVariant b.1 s.strategy) s))
    (hfault.trans hf) (hconf.trans hc) hm hpair rfl
  rw [withCmds_withCmds, performed_trainVariant_withCmds] at htrain
  rw [runSteps_succ _ hpredict, runSteps_succ _ htrain, branchState]

theorem foldl_branchState_withCmds (bs : List (Pc × Bool)) (ws : List Word) (s : State) :
    bs.foldl branchState (withCmds ws s) = withCmds ws (bs.foldl branchState s) := by
  induction bs generalizing s with
  | nil => rfl
  | cons b bs ih => rw [List.foldl_cons, branchState_withCmds, ih, List.foldl_cons]

/-- A driver run over a sequence of branches, from any running block (60_exceptions.md R249). -/
theorem runSteps_branches (bs : List (Pc × Bool)) {s : State} {rest : List Word}
    (hf : s.fault = false) (hc : s.configured = true) (hw : s.cmds = branchWords bs ++ rest) :
    runSteps (2 * bs.length) s = .next (withCmds rest (bs.foldl branchState s)) := by
  induction bs generalizing s with
  | nil => rw [show rest = s.cmds from hw.symm]; rfl
  | cons b bs ih =>
    obtain ⟨-, hfault⟩ := branchState_frame s b
    obtain ⟨hconf, -⟩ := branchState_configuration s b
    have hrun := ih (s := withCmds (branchWords bs ++ rest) (branchState s b))
      (hfault.trans hf) (hconf.trans hc) rfl
    rw [foldl_branchState_withCmds, withCmds_withCmds] at hrun
    exact (runSteps_branch b hf hc hw _).trans hrun

end Sys2Proof.Machine
end

