-- ==== Sys2Proof/Proofs/Histories.lean ====
section
/-! PROOF. The history registers hold the last outcomes of the branches they follow, newest in bit 0
(10_state.md R25, R27, R32). -/

namespace Sys2Proof.Machine

open Sys2Proof.Claims

/-! ## What one branch does to each history -/

section
variable (pc : Pc) (o : Bool) (s : State)

theorem trainData_ghr {m : Strategy} (hm : hasGlobal m = true) :
    (trainData pc o s m).ghr = shin s.ghr o s.g.toNat := by
  cases m with
  | gshare => rfl
  | tournament => rw [trainData, arbiterTrain_eq]; rfl
  | static | localHist | custom => cases hm

theorem trainData_h : (trainData pc o s .custom).h = shin s.h o s.nw.toNat := by
  rw [trainData, perceptronTrain_eq]

theorem readLht_trainData {m : Strategy} (hm : hasLocal m = true) (h : Memory.wf s = true)
    (a : Nat) : readLht (trainData pc o s m) a =
      if aidx pc s = a then shin (readLht s a) o s.l.toNat else readLht s a := by
  have hlocal : readLht (localTrain pc o s) a =
      if aidx pc s = a then shin (readLht s a) o s.l.toNat else readLht s a := by
    rw [readLht_localTrain pc o h]
    by_cases ha : a = aidx pc s
    · rw [if_pos ha, if_pos ha.symm, ha]
    · rw [if_neg ha, if_neg (Ne.symm ha)]
  cases m with
  | localHist => exact hlocal
  | tournament => rw [trainData, arbiterTrain_eq]; exact hlocal
  | static | gshare | custom => cases hm

end

theorem branchState_ghr {s : State} (b : Pc × Bool) (hm : hasGlobal s.strategy = true) :
    (branchState s b).ghr = shin s.ghr b.2 s.g.toNat := by
  obtain ⟨-, -, hsz, hghr, -⟩ := performed_predictVariant_frame b.1 s.strategy s
  have hg := congrArg SizeFields.g hsz
  rw [branchState, performed_trainVariant, respond_ghr, trainData_ghr _ _ _ hm, hghr]
  exact congrArg (fun g : BitVec 6 => shin s.ghr b.2 g.toNat) hg

theorem branchState_h {s : State} (b : Pc × Bool) (hm : s.strategy = .custom) :
    (branchState s b).h = shin s.h b.2 s.nw.toNat := by
  rw [branchState, hm, performed_trainVariant, respond_h, trainData_h]
  rfl

theorem readLht_branchState {s : State} (b : Pc × Bool) (hm : hasLocal s.strategy = true)
    (h : Memory.wf s = true) (a : Nat) : readLht (branchState s b) a =
      if b.1.toNat % 2 ^ s.p.toNat = a then shin (readLht s a) b.2 s.l.toNat else readLht s a := by
  obtain ⟨-, -, hsz, -, -, hlht⟩ := performed_predictVariant_frame b.1 s.strategy s
  set u := performed (predictVariant b.1 s.strategy) s with hu
  have hp : u.p = s.p := congrArg SizeFields.p hsz
  have hl : u.l = s.l := congrArg SizeFields.l hsz
  have htrain := readLht_trainData b.1 b.2 u hm (Memory.wf_performed _ h) a
  rw [aidx, toNat_and_mask, hp, hl, readLht, readLht, hlht] at htrain
  rw [branchState, performed_trainVariant]
  exact htrain

/-! ## What a sequence of branches does to each history -/

/-- `u` has the configuration of `s`, and canonical tables if `s` has. -/
structure Follows (s u : State) : Prop where
  strategy : u.strategy = s.strategy
  sizes : u.sizes = s.sizes
  tables : Memory.wf s = true → Memory.wf u = true

theorem follows_foldl_branchState (s : State) (bs : List (Pc × Bool)) :
    Follows s (bs.foldl branchState s) := by
  induction bs using List.reverseRecOn with
  | nil => exact ⟨rfl, rfl, id⟩
  | append_singleton bs b ih =>
    rw [List.foldl_concat]
    obtain ⟨-, hm, hsz⟩ := branchState_configuration (bs.foldl branchState s) b
    exact ⟨hm.trans ih.strategy, hsz.trans ih.sizes, fun h =>
      Memory.wf_performed _ (Memory.wf_performed _ (ih.tables h))⟩

/-- A history that shifts in the outcomes of the branches that `sel` selects, and of no other, holds the
last of them, newest in bit 0 (41_counter.md R115). -/
theorem getLsbD_history {w n : Nat} (hist : State → BitVec w) (sel : Pc × Bool → Bool) (s : State)
    (hshift : ∀ u b, Follows s u →
      hist (branchState u b) = if sel b then shin (hist u) b.2 n else hist u)
    (bs : List (Pc × Bool)) (k : Nat) (b : Pc × Bool) (hb : (bs.filter sel).reverse[k]? = some b)
    (hn : k < n) (hw : k < w) : (hist (bs.foldl branchState s)).getLsbD k = b.2 := by
  induction bs using List.reverseRecOn generalizing k with
  | nil => simp at hb
  | append_singleton bs c ih =>
    rw [List.foldl_concat, hshift _ c (follows_foldl_branchState s bs)]
    cases hc : sel c with
    | false =>
      rw [show (bs ++ [c]).filter sel = bs.filter sel by simp [hc]] at hb
      exact ih k hb hn hw
    | true =>
      rw [show (bs ++ [c]).filter sel = bs.filter sel ++ [c] by simp [hc],
        List.reverse_concat] at hb
      rw [if_pos rfl, getLsbD_shin _ _ _ _ hw hn]
      cases k with
      | zero => rw [← Option.some.inj hb]; rfl
      | succ k => exact ih k hb (Nat.lt_of_succ_lt hn) (Nat.lt_of_succ_lt hw)

/-- Settles O51: GHR and H shift in every branch. -/
theorem globalHistoryHoldsTheLastOutcomes : Obligations.GlobalHistoryHoldsTheLastOutcomes := by
  intro bs s t rest hf hc hw h k b hb
  rw [runSteps_branches bs hf hc hw] at h
  cases h
  have hall : (bs.filter fun _ => true).reverse[k]? = some b := by simpa using hb
  refine ⟨fun hm hk hk32 => ?_, fun hm hk => ?_⟩
  · refine getLsbD_history State.ghr (fun _ => true) s (fun u b hu => ?_) bs k b hall hk hk32
    rw [branchState_ghr b (hu.strategy ▸ hm), show u.g = s.g from congrArg SizeFields.g hu.sizes,
      if_pos rfl]
  · refine getLsbD_history State.h (fun _ => true) s (fun u b hu => ?_) bs k b hall hk (by omega)
    rw [branchState_h b (hu.strategy.trans hm),
      show u.nw = s.nw from congrArg SizeFields.nw hu.sizes, if_pos rfl]

/-- Settles O52: entry `a` shifts in the branches whose pc selects it. -/
theorem localHistoryHoldsItsOwnOutcomes : Obligations.LocalHistoryHoldsItsOwnOutcomes := by
  intro bs s t rest a hf hc hm hwf hw h k b hb hk hk32
  rw [runSteps_branches bs hf hc hw] at h
  cases h
  refine getLsbD_history (fun u => readLht u a) _ s (fun u b hu => ?_) bs k b hb hk hk32
  rw [readLht_branchState b (hu.strategy ▸ hm) (hu.tables hwf),
    show u.p = s.p from congrArg SizeFields.p hu.sizes,
    show u.l = s.l from congrArg SizeFields.l hu.sizes]
  simp only [decide_eq_true_eq]

end Sys2Proof.Machine
end

