-- ==== Sys2Proof/Proofs/TableIndices.lean ====
section
/-! PROOF. Every table index as arithmetic on the pc (20_memory.md R62). -/

namespace Sys2Proof.Machine

open Sys2Proof.Claims

/-- A mask takes the exclusive or of two registers bit by bit (42_gshare.md R130). -/
theorem gidx_eq_xor_mod (pc : Pc) (s : State) :
    gidx pc s = (pc.toNat % 2 ^ s.g.toNat) ^^^ (s.ghr.toNat % 2 ^ s.g.toNat) := by
  rw [gidx, toNat_and_mask, BitVec.toNat_xor, Nat.xor_mod_two_pow]

/-- With NP a power of two, `NP - 1` masks the low bits; NP has 14 bits, so the pc's bits from 14 up are
never among them (45_perceptron.md R176, R210). -/
theorem pidx_eq_mod (pc : Pc) {s : State} {k : Nat} (hk : s.np.toNat = 2 ^ k) :
    (pidx pc s).toNat = pc.toNat % s.np.toNat := by
  have hpos : 0 < 2 ^ k := Nat.two_pow_pos k
  have hmask : (s.np - 1).toNat = 2 ^ k - 1 := by bv_omega
  have hk14 : k ≤ 14 := Nat.le_of_lt ((Nat.pow_lt_pow_iff_right (by decide)).1 (hk ▸ s.np.isLt))
  rw [pidx, BitVec.toNat_and, hmask, Nat.and_two_pow_sub_one_eq_mod, BitVec.toNat_setWidth, hk,
    Nat.mod_mod_of_dvd _ (Nat.pow_dvd_pow 2 hk14)]

/-- Settles O14: each index is its register masked, and a mask is a remainder. -/
theorem indicesAreLowBitsAndInRange : Obligations.IndicesAreLowBitsAndInRange := by
  intro s pc
  exact ⟨gidx_eq_xor_mod pc s, gidx_lt pc s, toNat_and_mask pc _, aidx_lt pc s, rfl,
    toNat_and_mask (readLht s (aidx pc s)) _, hidx_lt pc s, fun _ => pidx_eq_mod pc⟩

end Sys2Proof.Machine
end

