-- ==== Sys2Proof/Proofs/Predictions.lean ====
section
/-! PROOF. A PREDICT writes nothing that a PREDICT reads (20_memory.md R64, 42_gshare.md R134). -/

namespace Sys2Proof.Machine

open Sys2Proof.Claims

theorem exists_predictVariant {i : Instr} (h : isPredict i = true) :
    ∃ pc m, i = predictVariant pc m := by
  rcases instr_variants i with ⟨f, m, rfl⟩ | hp | ⟨pc, o, m, rfl⟩
  · cases m <;> cases h
  · exact hp
  · cases m <;> cases h

section
variable {pc : Pc} {m : Strategy} {s t : State}

theorem exec_predictVariant_faulted (hf : s.fault = true) :
    exec (predictVariant pc m) s = .next (answerFaulted s) := by
  rw [exec_predictVariant, underStrategy_faulted m s _ hf]

theorem exec_predictVariant_unconfigured (hf : s.fault = false) (hc : s.configured = false) :
    exec (predictVariant pc m) s = .next (raise .notConfigured s) := by
  rw [exec_predictVariant, underStrategy_unconfigured m s _ hf hc]

/-- A running block answers the PREDICT of its own strategy, and only that one. -/
theorem exec_predictVariant_running (hf : s.fault = false) (hc : s.configured = true)
    (h : exec (predictVariant pc m) s = .next t) : t = performed (predictVariant pc m) s := by
  rw [exec_predictVariant] at h
  rcases underStrategy_cases m s (performed (predictVariant pc m) s) with
    ⟨hf', -⟩ | ⟨-, hc', -⟩ | ⟨-, -, -, hk⟩ | ⟨-, -, -, hk⟩
  · exact absurd (hf.symm.trans hf') (by decide)
  · exact absurd (hc'.symm.trans hc) (by decide)
  · rw [hk] at h; exact (Host.Outcome.next.inj h).symm
  · rw [hk] at h; cases h

end

/-- The prediction of `pc` reads nothing that a PREDICT of another branch writes. -/
theorem predictTaken_performed_predictVariant (pc q : Pc) (m n : Strategy) (s : State) :
    predictTaken pc (performed (predictVariant q n) s) m = predictTaken pc s m := by
  cases n <;> rfl

theorem performed_predictVariant_response (pc : Pc) (m : Strategy) (s : State) :
    (performed (predictVariant pc m) s).rspTaken = predictTaken pc s m ∧
      (performed (predictVariant pc m) s).rspStatus = 0 := by
  rw [performed_predictVariant]
  exact ⟨rfl, rfl⟩

/-- A PREDICT of a running block leaves it running (60_exceptions.md R243). -/
theorem performed_predictVariant_running (q : Pc) (n : Strategy) {s : State}
    (hf : s.fault = false) (hc : s.configured = true) :
    (performed (predictVariant q n) s).fault = false ∧
      (performed (predictVariant q n) s).configured = true := by
  obtain ⟨-, -, hfault, -⟩ := performed_frame (predictVariant q n) s
  obtain ⟨hconf, -⟩ := performed_predictVariant_frame q n s
  exact ⟨hfault.trans hf, hconf.trans hc⟩

/-- After a fault every PREDICT answers the cause of it, so a later one says the same again. -/
theorem repeated_predict_faulted {pc q : Pc} {m n : Strategy} {t u v : State} (hf : t.fault = true)
    (hu : exec (predictVariant q n) t = .next u) (hv : exec (predictVariant pc m) u = .next v) :
    v.rspTaken = false ∧ v.rspStatus = t.cause := by
  rw [exec_predictVariant_faulted hf] at hu
  cases hu
  have hf' : (answerFaulted t).fault = true := hf
  rw [exec_predictVariant_faulted hf'] at hv
  cases hv
  exact ⟨rfl, rfl⟩

/-- Settles O49: a faulted or unconfigured block answers its cause, a running one a prediction that no
PREDICT disturbs. -/
theorem predictionsDoNotDisturbEachOther : Obligations.PredictionsDoNotDisturbEachOther := by
  intro i j s t u v hi hj ht hu hv
  obtain ⟨pc, m, rfl⟩ := exists_predictVariant hi
  obtain ⟨q, n, rfl⟩ := exists_predictVariant hj
  cases hf : s.fault with
  | true =>
    rw [exec_predictVariant_faulted hf] at ht
    cases ht
    exact repeated_predict_faulted (t := answerFaulted s) hf hu hv
  | false =>
    cases hc : s.configured with
    | false =>
      rw [exec_predictVariant_unconfigured hf hc] at ht
      cases ht
      exact repeated_predict_faulted rfl hu hv
    | true =>
      cases exec_predictVariant_running hf hc ht
      obtain ⟨hft, hct⟩ := performed_predictVariant_running pc m hf hc
      cases exec_predictVariant_running hft hct hu
      obtain ⟨hfu, hcu⟩ := performed_predictVariant_running q n hft hct
      cases exec_predictVariant_running hfu hcu hv
      simp only [performed_predictVariant_response, predictTaken_performed_predictVariant, and_self]

end Sys2Proof.Machine
end

