-- ==== Sys2Proof/Proofs/Encoding.lean ====
section
/-! PROOF. The decoder inverts the encoder: a word is its fields one after the other, so what it decodes
to is exactly what encodes to it (30_encoding.md sections 2 to 4). -/

namespace Sys2Proof.Machine

/-! ## A word as its fields -/

/-- A concatenation determines both of its parts. -/
theorem bitVec_append_inj {v n : Nat} {x x' : BitVec v} {y y' : BitVec n} :
    x ++ y = x' ++ y' ↔ x = x' ∧ y = y' := by
  refine ⟨fun h => ?_, fun ⟨hx, hy⟩ => hx ▸ hy ▸ rfl⟩
  have hy : y = y' := by
    simpa only [BitVec.setWidth_append_eq_right] using congrArg (BitVec.setWidth n) h
  exact ⟨(BitVec.append_left_inj y').1 (hy ▸ h), hy⟩

/-- The fields of format C, from bit 63 down, make up the word (30_encoding.md R83). -/
theorem append_fieldsC (w : Word) :
    (opField w ++ stratField w ++ (sizeFields w).g ++ (sizeFields w).l ++ (sizeFields w).p ++
      (sizeFields w).np ++ (sizeFields w).nw ++ (sizeFields w).th : Word) = w := by
  simp (disch := omega) only [opField, stratField, sizeFields,
    BitVec.extractLsb'_append_extractLsb'_eq_extractLsb']
  exact BitVec.extractLsb'_eq_self

theorem ofBool_outcomeField (w : Word) : BitVec.ofBool (outcomeField w) = w.extractLsb' 32 1 := by
  ext i hi
  simp [outcomeField, Nat.lt_one_iff.1 hi]

/-- The fields of format B, from bit 63 down, make up the word (30_encoding.md R82). -/
theorem append_fieldsB (w : Word) :
    (opField w ++ trainReserved w ++ BitVec.ofBool (outcomeField w) ++ pcField w : Word) = w := by
  simp (disch := omega) only [opField, trainReserved, pcField, ofBool_outcomeField,
    BitVec.extractLsb'_append_extractLsb'_eq_extractLsb']
  exact BitVec.extractLsb'_eq_self

/-- The reserved bits of a PREDICT are those of a TRAIN and the bit O (30_encoding.md R82). -/
theorem predictReserved_eq_zero {w : Word} :
    predictReserved w = 0 ↔ trainReserved w = 0 ∧ outcomeField w = false := by
  have happend : predictReserved w = trainReserved w ++ BitVec.ofBool (outcomeField w) := by
    rw [ofBool_outcomeField, trainReserved,
      BitVec.extractLsb'_append_extractLsb'_eq_extractLsb' (show 33 = 32 + 1 from rfl)]
    rfl
  rw [happend, show (0 : BitVec 28) = (0 : BitVec 27) ++ BitVec.ofBool false from rfl,
    bitVec_append_inj, BitVec.ofBool_eq_iff_eq]

/-! ## The formats -/

theorem formatC_eq_iff {t : BitVec 4} {f : SizeFields} {w : Word} :
    formatC t f = w ↔ opField w = 1 ∧ stratField w = t ∧ sizeFields w = f := by
  obtain ⟨g, l, p, np, nw, th⟩ := f
  conv_lhs => rw [formatC, eq_comm, ← append_fieldsC w]
  rw [bitVec_append_inj]
  simp only [bitVec_append_inj, and_assoc, sizeFields, SizeFields.mk.injEq]
  rfl

theorem formatB_eq_iff {op : BitVec 4} {o : Bool} {pc : Pc} {w : Word} :
    formatB op o pc = w ↔
      opField w = op ∧ trainReserved w = 0 ∧ outcomeField w = o ∧ pcField w = pc := by
  conv_lhs => rw [formatB, eq_comm, ← append_fieldsB w]
  rw [bitVec_append_inj]
  simp only [bitVec_append_inj, BitVec.ofBool_eq_iff_eq, and_assoc]
  rfl

/-- A word decodes to a command exactly when it is the command's encoding (30_encoding.md R89). -/
theorem decodeCommand_eq_ok_iff {w : Word} {c : Command} :
    decodeCommand w = .ok c ↔ encodeCommand c = w := by
  unfold decodeCommand
  cases c with
  | configure t f =>
    rw [encodeCommand, formatC_eq_iff]
    split_ifs <;> simp_all
  | predict pc =>
    rw [encodeCommand, formatB_eq_iff]
    simp only [predictReserved_eq_zero]
    split_ifs <;> simp_all
  | train pc o =>
    rw [encodeCommand, formatB_eq_iff]
    split_ifs <;> simp_all [and_comm]

/-- Settles O4: a command's word decodes to it. -/
theorem commandSurvivesEncoding : Obligations.CommandSurvivesEncoding :=
  fun _ => decodeCommand_eq_ok_iff.2 rfl

/-! ## The variants of a command -/

/-- The command an operation is a variant of (30_encoding.md R84). -/
def commandOf : Instr → Command
  | .configureStatic f => .configure Strategy.static.tag f
  | .configureGshare f => .configure Strategy.gshare.tag f
  | .configureLocal f => .configure Strategy.localHist.tag f
  | .configureTournament f => .configure Strategy.tournament.tag f
  | .configureCustom f => .configure Strategy.custom.tag f
  | .predictStatic pc | .predictGshare pc | .predictLocal pc
  | .predictTournament pc | .predictCustom pc => .predict pc
  | .trainStatic pc o | .trainGshare pc o | .trainLocal pc o
  | .trainTournament pc o | .trainCustom pc o => .train pc o

theorem encode_eq_encodeCommand (i : Instr) : encode i = encodeCommand (commandOf i) := by
  cases i <;> rfl

theorem commandOf_configureVariant (f : SizeFields) (k : Strategy) :
    commandOf (configureVariant f k) = .configure k.tag f := by
  cases k <;> rfl

theorem commandOf_predictVariant (pc : Pc) (k : Strategy) :
    commandOf (predictVariant pc k) = .predict pc := by
  cases k <;> rfl

theorem commandOf_trainVariant (pc : Pc) (o : Bool) (k : Strategy) :
    commandOf (trainVariant pc o k) = .train pc o := by
  cases k <;> rfl

theorem wellFormed_predictVariant {pc : Pc} {k m : Strategy} :
    (predictVariant pc k).wellFormed m = true ↔ k = m := by
  cases k <;> exact beq_iff_eq

theorem wellFormed_trainVariant {pc : Pc} {o : Bool} {k m : Strategy} :
    (trainVariant pc o k).wellFormed m = true ↔ k = m := by
  cases k <;> exact beq_iff_eq

/-- The five tags name the five strategies (30_encoding.md R85). -/
theorem ofTag_eq_some_iff {t : BitVec 4} {k : Strategy} : Strategy.ofTag t = some k ↔ k.tag = t := by
  revert t
  cases k <;> decide

/-- STRAT and STRATEGY select the one variant of the command that belongs to them (30_encoding.md R84,
R88). -/
theorem selectVariant_eq_ok_iff {m : Strategy} {c : Command} {i : Instr} :
    selectVariant m c = .ok i ↔ commandOf i = c ∧ i.wellFormed m = true := by
  constructor
  · intro h
    cases c with
    | configure t f =>
      cases ht : Strategy.ofTag t with
      | none => simp [selectVariant, ht] at h
      | some k =>
        simp only [selectVariant, ht] at h
        cases h
        rw [commandOf_configureVariant, ofTag_eq_some_iff.1 ht]
        exact ⟨rfl, by cases k <;> rfl⟩
    | predict pc =>
      cases h
      exact ⟨commandOf_predictVariant pc m, wellFormed_predictVariant.2 rfl⟩
    | train pc o =>
      cases h
      exact ⟨commandOf_trainVariant pc o m, wellFormed_trainVariant.2 rfl⟩
  · rintro ⟨rfl, hwf⟩
    rcases instr_variants i with ⟨f, k, rfl⟩ | ⟨pc, k, rfl⟩ | ⟨pc, o, k, rfl⟩
    · rw [commandOf_configureVariant, selectVariant, ofTag_eq_some_iff.2 rfl]
    · rw [commandOf_predictVariant, wellFormed_predictVariant.1 hwf, selectVariant]
    · rw [commandOf_trainVariant, wellFormed_trainVariant.1 hwf, selectVariant]

/-! ## Words and operations -/

/-- A word decodes to an operation exactly when it is the operation's encoding and STRATEGY selects the
operation (30_encoding.md R88, R89). -/
theorem decode_eq_ok_iff {m : Strategy} {w : Word} {i : Instr} :
    decode m w = .ok i ↔ encode i = w ∧ i.wellFormed m = true := by
  have hselect : decode m w = .ok i ↔
      ∃ c, decodeCommand w = .ok c ∧ selectVariant m c = .ok i := by
    unfold decode
    cases decodeCommand w <;> simp
  rw [hselect, encode_eq_encodeCommand]
  simp only [decodeCommand_eq_ok_iff, selectVariant_eq_ok_iff]
  constructor
  · rintro ⟨c, hw, rfl, hwf⟩
    exact ⟨hw, hwf⟩
  · rintro ⟨hw, hwf⟩
    exact ⟨commandOf i, hw, rfl, hwf⟩

/-- Settles O2: an operation's word decodes to it under the STRATEGY that selects it. -/
theorem decodeOfEncodeIsTheOperation : Obligations.DecodeOfEncodeIsTheOperation :=
  fun _ _ hwf => decode_eq_ok_iff.2 ⟨rfl, hwf⟩

/-- Settles O3: the other direction of the same equivalence. -/
theorem encodeOfDecodeIsTheWord : Obligations.EncodeOfDecodeIsTheWord :=
  fun _ _ _ h => decode_eq_ok_iff.1 h

/-- Settles O1: eleven closed words, each decoded by evaluation. -/
theorem specWordsDecodeToTheirOperations : Obligations.SpecWordsDecodeToTheirOperations := by
  unfold Obligations.SpecWordsDecodeToTheirOperations
  decide

end Sys2Proof.Machine
end

