-- ==== Sys2Proof/Proofs/OpcodeMap.lean ====
section
/-! PROOF. Which words select a row of the opcode map, by match, mask and STRATEGY, and which words the
decoder rejects (30_encoding.md R84, R86). -/

namespace Sys2Proof.Machine

/-! ## The rejected words -/

theorem selectVariant_eq_error_iff {m : Strategy} {c : Command} {r : Reject} :
    selectVariant m c = .error r ↔
      ∃ t f, c = .configure t f ∧ Strategy.ofTag t = none ∧ r = .badStrategyTag t := by
  cases c with
  | configure t f => cases ht : Strategy.ofTag t <;> simp [selectVariant, ht, eq_comm]
  | predict pc => simp [selectVariant]
  | train pc o => simp [selectVariant]

theorem decodeCommand_eq_error_iff {w : Word} {r : Reject} :
    decodeCommand w = .error r ↔
      (r = .reservedOpcode ∧ opField w ≠ 1 ∧ opField w ≠ 2 ∧ opField w ≠ 3) ∨
      (r = .reservedBits ∧ ((opField w = 2 ∧ predictReserved w ≠ 0) ∨
        (opField w = 3 ∧ trainReserved w ≠ 0))) := by
  unfold decodeCommand
  split_ifs <;> simp_all [eq_comm (b := r)]

/-- The decoder rejects a word before it reads a tag, or for the tag of a CONFIGURE (log 8). -/
theorem decode_eq_error_iff {m : Strategy} {w : Word} {r : Reject} :
    decode m w = .error r ↔ decodeCommand w = .error r ∨
      (opField w = 1 ∧ Strategy.ofTag (stratField w) = none ∧ r = .badStrategyTag (stratField w)) := by
  have hselect : decode m w = .error r ↔ decodeCommand w = .error r ∨
      ∃ c, decodeCommand w = .ok c ∧ selectVariant m c = .error r := by
    unfold decode
    cases decodeCommand w <;> simp
  simp only [hselect, selectVariant_eq_error_iff, decodeCommand_eq_ok_iff]
  refine or_congr_right ⟨?_, ?_⟩
  · rintro ⟨-, hw, t, f, rfl, ht, hr⟩
    obtain ⟨hop, rfl, -⟩ := formatC_eq_iff.1 hw
    exact ⟨hop, ht, hr⟩
  · rintro ⟨hop, ht, hr⟩
    exact ⟨.configure (stratField w) (sizeFields w), formatC_eq_iff.2 ⟨hop, rfl, rfl⟩, _, _, rfl,
      ht, hr⟩

theorem decode_eq_reservedOpcode_iff {m : Strategy} {w : Word} :
    decode m w = .error .reservedOpcode ↔ opField w ≠ 1 ∧ opField w ≠ 2 ∧ opField w ≠ 3 := by
  simp [decode_eq_error_iff, decodeCommand_eq_error_iff]

theorem decode_eq_reservedBits_iff {m : Strategy} {w : Word} :
    decode m w = .error .reservedBits ↔ (opField w = 2 ∧ predictReserved w ≠ 0) ∨
      (opField w = 3 ∧ trainReserved w ≠ 0) := by
  simp [decode_eq_error_iff, decodeCommand_eq_error_iff]

theorem decode_eq_badStrategyTag_iff {m : Strategy} {w : Word} {t : BitVec 4} :
    decode m w = .error (.badStrategyTag t) ↔
      opField w = 1 ∧ stratField w = t ∧ Strategy.ofTag t = none := by
  simp only [decode_eq_error_iff, decodeCommand_eq_error_iff, reduceCtorEq, false_and, or_self,
    false_or, Reject.badStrategyTag.injEq]
  constructor
  · rintro ⟨hop, ht, rfl⟩
    exact ⟨hop, rfl, ht⟩
  · rintro ⟨hop, rfl, ht⟩
    exact ⟨hop, ht, rfl⟩

/-- The tags 5 to 15 name no strategy (30_encoding.md R85). -/
theorem ofTag_eq_none_iff {t : BitVec 4} : Strategy.ofTag t = none ↔ 5 ≤ t.toNat := by
  revert t
  decide

/-! ## The fields of a word as numbers -/

/-- A field of a word as a number. -/
theorem extractLsb'_eq_iff {w : Word} {start len : Nat} {x : BitVec len} :
    w.extractLsb' start len = x ↔ w.toNat / 2 ^ start % 2 ^ len = x.toNat := by
  rw [← BitVec.toNat_inj, BitVec.extractLsb'_toNat, Nat.shiftRight_eq_div_pow]

/-- OP is at the top of the word, so no remainder is left to take (30_encoding.md R82). -/
theorem opField_eq_iff {w : Word} {op : BitVec 4} :
    opField w = op ↔ w.toNat / 2 ^ 60 = op.toNat := by
  rw [opField, extractLsb'_eq_iff, Nat.mod_eq_of_lt (by omega)]

/-- Settles O5: the decoder's three reasons, each read as a number. -/
theorem rejectedWordsAreTheReservedOnes : Obligations.RejectedWordsAreTheReservedOnes := by
  intro m w op
  refine ⟨?_, ?_, fun t => ?_⟩
  · rw [decode_eq_reservedOpcode_iff, Ne, Ne, Ne, opField_eq_iff, opField_eq_iff, opField_eq_iff]
    rfl
  · rw [decode_eq_reservedBits_iff, predictReserved, trainReserved, Ne, Ne, extractLsb'_eq_iff,
      extractLsb'_eq_iff, opField_eq_iff, opField_eq_iff]
    rfl
  · rw [decode_eq_badStrategyTag_iff, opField_eq_iff, stratField, extractLsb'_eq_iff,
      ofTag_eq_none_iff, eq_comm (b := t.toNat)]
    rfl

/-! ## The rows of the opcode map -/

/-- Under a mask of its `v` high bits a word matches exactly when its high bits are the given ones. -/
theorem and_highMask_eq_iff {v n : Nat} {w : BitVec (v + n)} {x : BitVec v} :
    w &&& (BitVec.allOnes v ++ 0#n) = x ++ 0#n ↔ w.extractLsb' n v = x := by
  conv_lhs => rw [← BitVec.extractLsb'_append_extractLsb' (x := w)]
  rw [BitVec.and_append, bitVec_append_inj]
  simp

/-- Match and mask of a CONFIGURE row are OP and STRAT (30_encoding.md R84). -/
theorem configureMask_iff {w : Word} {t : BitVec 4} :
    w &&& 0xFF00000000000000 = (0x1#4 ++ t ++ 0#56 : Word) ↔ opField w = 1 ∧ stratField w = t := by
  have hfields : opField w ++ stratField w = w.extractLsb' 56 8 :=
    BitVec.extractLsb'_append_extractLsb'_eq_extractLsb' (show 60 = 56 + 4 from rfl)
  refine (and_highMask_eq_iff (v := 8) (n := 56)).trans ?_
  rw [← hfields, bitVec_append_inj]
  rfl

/-- Match and mask of the PREDICT rows are OP and the reserved bits 59:32 (30_encoding.md R84). -/
theorem predictMask_iff {w : Word} :
    w &&& 0xFFFFFFFF00000000 = 0x2000000000000000 ↔ opField w = 2 ∧ predictReserved w = 0 := by
  have hfields : opField w ++ predictReserved w = w.extractLsb' 32 32 :=
    BitVec.extractLsb'_append_extractLsb'_eq_extractLsb' (show 60 = 32 + 28 from rfl)
  refine (and_highMask_eq_iff (v := 32) (n := 32) (x := 0x2#4 ++ 0#28)).trans ?_
  rw [← hfields, bitVec_append_inj]
  rfl

/-- Match and mask of the TRAIN rows are OP and the reserved bits 59:33 (30_encoding.md R84). -/
theorem trainMask_iff {w : Word} :
    w &&& 0xFFFFFFFE00000000 = 0x3000000000000000 ↔ opField w = 3 ∧ trainReserved w = 0 := by
  have hfields : opField w ++ trainReserved w = w.extractLsb' 33 31 :=
    BitVec.extractLsb'_append_extractLsb'_eq_extractLsb' (show 60 = 33 + 27 from rfl)
  refine (and_highMask_eq_iff (v := 31) (n := 33) (x := 0x3#4 ++ 0#27)).trans ?_
  rw [← hfields, bitVec_append_inj]
  rfl

/-- The five CONFIGURE rows; STRATEGY does not matter (30_encoding.md R84). -/
theorem decode_configureRow (m k : Strategy) (w : Word) :
    decode m w = .ok (configureVariant (sizeFields w) k) ↔
      w &&& 0xFF00000000000000 = (0x1#4 ++ k.tag ++ 0#56 : Word) := by
  have hwf : (configureVariant (sizeFields w) k).wellFormed m = true := by cases k <;> rfl
  rw [decode_eq_ok_iff, encode_eq_encodeCommand, commandOf_configureVariant, encodeCommand,
    formatC_eq_iff, configureMask_iff]
  simp [hwf]

/-- The five PREDICT rows (30_encoding.md R84). -/
theorem decode_predictRow (m k : Strategy) (w : Word) :
    decode m w = .ok (predictVariant (pcField w) k) ↔
      w &&& 0xFFFFFFFF00000000 = 0x2000000000000000 ∧ m = k := by
  rw [decode_eq_ok_iff, encode_eq_encodeCommand, commandOf_predictVariant, encodeCommand,
    formatB_eq_iff, wellFormed_predictVariant, predictMask_iff, predictReserved_eq_zero]
  simp [eq_comm (a := k)]

/-- The five TRAIN rows (30_encoding.md R84). -/
theorem decode_trainRow (m k : Strategy) (w : Word) :
    decode m w = .ok (trainVariant (pcField w) (outcomeField w) k) ↔
      w &&& 0xFFFFFFFE00000000 = 0x3000000000000000 ∧ m = k := by
  rw [decode_eq_ok_iff, encode_eq_encodeCommand, commandOf_trainVariant, encodeCommand,
    formatB_eq_iff, wellFormed_trainVariant, trainMask_iff]
  simp [eq_comm (a := k)]

/-- OP as a shifted word. -/
theorem ushiftRight_eq_iff {w : Word} {op : BitVec 4} :
    w >>> 60 = op.setWidth 64 ↔ opField w = op := by
  rw [opField_eq_iff, ← BitVec.toNat_inj, BitVec.toNat_ushiftRight, Nat.shiftRight_eq_div_pow,
    BitVec.toNat_setWidth, Nat.mod_eq_of_lt (by omega)]

/-- The size fields as shifts (30_encoding.md R83). -/
theorem sizeFields_eq_shifts (w : Word) :
    sizeFields w =
      { g := (w >>> 50).setWidth 6, l := (w >>> 44).setWidth 6, p := (w >>> 38).setWidth 6,
        np := (w >>> 24).setWidth 14, nw := (w >>> 16).setWidth 8, th := w.setWidth 16 } := by
  simp only [BitVec.setWidth_ushiftRight_eq_extractLsb,
    BitVec.setWidth_eq_extractLsb' (show 16 ≤ 64 by decide)]
  rfl

/-- Settles O6: one lemma per kind of row, taken at each strategy. -/
theorem wordSelectsRowByMaskMatchAndMode : Obligations.WordSelectsRowByMaskMatchAndMode := by
  intro m w f pc o
  have hf : f = sizeFields w := (sizeFields_eq_shifts w).symm
  have hpc : pc = pcField w := BitVec.setWidth_eq_extractLsb' (by decide)
  have ho : o = outcomeField w := rfl
  rw [hf, hpc, ho]
  have hop : decode m w = .error .reservedOpcode ↔ w >>> 60 ≠ 1 ∧ w >>> 60 ≠ 2 ∧ w >>> 60 ≠ 3 := by
    rw [decode_eq_reservedOpcode_iff, Ne, Ne, Ne, ← ushiftRight_eq_iff, ← ushiftRight_eq_iff,
      ← ushiftRight_eq_iff]
    rfl
  exact ⟨hop, decode_configureRow m .static w, decode_configureRow m .gshare w,
    decode_configureRow m .localHist w, decode_configureRow m .tournament w,
    decode_configureRow m .custom w, decode_predictRow m .static w, decode_predictRow m .gshare w,
    decode_predictRow m .localHist w, decode_predictRow m .tournament w,
    decode_predictRow m .custom w, decode_trainRow m .static w, decode_trainRow m .gshare w,
    decode_trainRow m .localHist w, decode_trainRow m .tournament w, decode_trainRow m .custom w⟩

end Sys2Proof.Machine
end

