-- ==== Sys2Proof/Proofs/CommandPort.lean ====
section
/-! PROOF. From a listing to the words on CMD, and from a word on CMD to one transition
(30_encoding.md R80, R91, R92). -/

namespace Sys2Proof.Machine

open Sys2Proof.Claims

/-- Settles O9: a step answers as a faulted block, raises a fault or performs an operation, and each of
the three leaves the later words and the build parameters alone. -/
theorem everyWordCausesOneTransition : Obligations.EveryWordCausesOneTransition := by
  refine ⟨fun s w rest hw => ?_, step_nil⟩
  rcases step_cases s w rest hw with ⟨-, h⟩ | ⟨-, c, h⟩ | ⟨-, i, -, -, h⟩
  · exact ⟨_, h, rfl, rfl⟩
  · exact ⟨_, h, rfl, rfl⟩
  · obtain ⟨hcmds, hbuild, -⟩ := performed_frame i { s with cmds := rest }
    exact ⟨_, h, hcmds, hbuild⟩

/-- Settles O8: taking the word leaves STRATEGY, which selects the operation. -/
theorem stepRunsTheDecodedOperation : Obligations.StepRunsTheDecodedOperation := by
  intro s w rest i hw hd
  simp only [step, takeCommand_cons s w rest hw, hd]

/-- BRANCH stands for PREDICT and then TRAIN of the same branch (30_encoding.md R92). -/
theorem assembleLine_branch (pc : Pc) (o : Bool) :
    assembleLine (.branch pc o) = [predictWord pc, trainWord pc o] := rfl

/-- Settles O7: BRANCH by its expansion, the four closed listings by evaluation. -/
theorem listingLinesAssembleToTheirWords : Obligations.ListingLinesAssembleToTheirWords :=
  ⟨assembleLine_branch, by decide, by decide, by decide, by decide⟩

end Sys2Proof.Machine
end

