-- ==== Sys2Proof/Proofs/CounterAndHistory.lean ====
section
/-! PROOF. The saturating counter's table and laws, and the history shift by value and bit by bit
(41_counter.md R110 to R116). -/

namespace Sys2Proof.Machine

open Sys2Proof.Claims

/-! ## The history shift -/

/-- Before the mask, `shin` moves the outcome in at the low end. -/
theorem shin_eq_shiftConcat_and_mask {w : Nat} (h : BitVec w) (o : Bool) (n : Nat) :
    shin h o n = h.shiftConcat o &&& mask w n := by
  rw [shin]
  congr 1
  ext k hk
  rw [BitVec.getElem_shiftConcat, BitVec.getElem_or, BitVec.getElem_shiftLeft,
    BitVec.getElem_setWidth, BitVec.getLsbD_ofBool]
  rcases k with _ | k <;> simp

/-- The bit that leaves a container of at least `n` bits has a weight that `2 ^ n` divides. -/
theorem toNat_shin {w n : Nat} (h : BitVec w) (o : Bool) (hn : n ≤ w) :
    (shin h o n).toNat = (2 * h.toNat + o.toNat) % 2 ^ n := by
  rw [shin_eq_shiftConcat_and_mask, toNat_and_mask, BitVec.toNat_shiftConcat,
    Nat.mod_mod_of_dvd _ (Nat.pow_dvd_pow 2 hn), Nat.shiftLeft_eq, Nat.pow_one, Nat.mul_comm]

theorem getLsbD_shin_of_le {w n k : Nat} (h : BitVec w) (o : Bool) (hk : n ≤ k) :
    (shin h o n).getLsbD k = false :=
  Nat.testBit_lt_two_pow
    (Nat.lt_of_lt_of_le (toNat_shin_lt h o n) (Nat.pow_le_pow_right Nat.two_pos hk))

/-- Settles O13: the value is a remainder, and the bits below and from `n` on have a lemma each. -/
theorem historyShiftsInTheOutcome : Obligations.HistoryShiftsInTheOutcome := by
  intro w n h o hpos hn
  have hbit (k : Nat) (hk : k < n) := getLsbD_shin h o n k (Nat.lt_of_lt_of_le hk hn) hk
  refine ⟨toNat_shin h o hn, hbit 0 hpos, fun k h1 hk => ?_, fun k => getLsbD_shin_of_le h o⟩
  rw [hbit k hk, if_neg (Nat.ne_of_gt h1)]

/-! ## The counter -/

/-- Settles O11: the table's four rows, evaluated. -/
theorem counterTransitionTable : Obligations.CounterTransitionTable := by
  unfold Obligations.CounterTransitionTable
  decide

/-- A decrement undoes an increment except at 3, where the increment did nothing. -/
theorem dec2_inc2 : ∀ c : Counter, dec2 (inc2 c) = if c = 3 then 2 else c := by decide

/-- An increment undoes a decrement except at 0, where the decrement did nothing. -/
theorem inc2_dec2 : ∀ c : Counter, inc2 (dec2 c) = if c = 0 then 1 else c := by decide

/-- No state is more than two updates away from predicting the outcome. -/
theorem dir2_upd2_upd2 : ∀ (c : Counter) (o : Bool), dir2 (upd2 (upd2 c o) o) = o := by decide

/-- Settles O12: 3 and 0 are fixed points of the two moves, so that any number of moves keeps them; the
bound is the counter's width. -/
theorem counterLaws : Obligations.CounterLaws := by
  refine ⟨fun c => ?bounded, dec2_inc2, inc2_dec2, fun n => ?saturated, dir2_upd2_upd2⟩
  case bounded => exact ⟨Nat.le_of_lt_succ (inc2 c).isLt, Nat.le_of_lt_succ (dec2 c).isLt⟩
  case saturated =>
    have hinc : inc2 3 = 3 := rfl
    have hdec : dec2 0 = 0 := rfl
    exact ⟨Function.iterate_fixed hinc n, Function.iterate_fixed hdec n⟩

end Sys2Proof.Machine
end

