-- ==== Sys2Proof/Proofs/RunningBlock.lean ====
section
/-! PROOF. What the command port answers for a PREDICT and a TRAIN of a running block, and for a CONFIGURE
of legal sizes of an unconfigured one (46_facade.md R200, R201, R204, R210). -/

namespace Sys2Proof.Machine

open Sys2Proof.Claims

/-! ## PREDICT and TRAIN of a running block -/

/-- A running block performs the PREDICT of its strategy, which its word stands for. -/
theorem runsAs_predictVariant {m : Strategy} {s : State} (pc : Pc) (h : RunningUnder m s) :
    RunsAs (predictVariant pc m) (predictWord pc) s (performed (predictVariant pc m) s) := by
  refine ⟨exec_of_performable h.fault (performable_predictVariant.2 ⟨h.configured, h.strategy⟩),
    fun rest => ?_⟩
  have hstep := step_predictWord (s := withCmds (predictWord pc :: rest) s) h.fault h.configured rfl
  rw [withCmds_withCmds, performed_predictVariant_withCmds] at hstep
  rw [← h.strategy]
  exact hstep

/-- A running block performs the TRAIN of its strategy, under CUSTOM if it pairs, and its word stands for
it. -/
theorem runsAs_trainVariant {m : Strategy} {s : State} (pc : Pc) (o : Bool) (h : RunningUnder m s)
    (hpair : m = .custom → paired pc s = true) :
    RunsAs (trainVariant pc o m) (trainWord pc o) s (performed (trainVariant pc o m) s) := by
  refine ⟨exec_of_performable h.fault
    (performable_trainVariant.2 ⟨h.configured, h.strategy, hpair⟩), fun rest => ?_⟩
  have hstep := step_trainWord (s := withCmds (trainWord pc o :: rest) s) h.fault h.configured
    h.strategy hpair rfl
  rw [withCmds_withCmds, performed_trainVariant_withCmds] at hstep
  exact hstep

/-- A TRAIN leaves a running block running. -/
theorem RunningUnder.performed_trainVariant {m : Strategy} {s : State} (h : RunningUnder m s)
    (pc : Pc) (o : Bool) : RunningUnder m (performed (trainVariant pc o m) s) := by
  obtain ⟨-, -, hfault, -⟩ := performed_frame (trainVariant pc o m) s
  obtain ⟨hconf, hm, -⟩ := trainData_configuration pc o s m
  rw [Machine.performed_trainVariant] at hfault ⊢
  exact ⟨hfault.trans h.fault, hconf.trans h.configured, hm.trans h.strategy⟩

/-! ## CONFIGURE of legal sizes -/

/-- A field of 14 bits holds the powers of two below the 14th. -/
theorem isPowerOfTwo_iff {n : BitVec 14} : isPowerOfTwo n = true ↔ ∃ k, n.toNat = 2 ^ k := by
  simp only [isPowerOfTwo, List.any_eq_true, List.mem_range, beq_iff_eq]
  refine ⟨fun ⟨k, _, hk⟩ => ⟨k, hk⟩, fun ⟨k, hk⟩ => ⟨k, ?_, hk⟩⟩
  exact (Nat.pow_lt_pow_iff_right Nat.one_lt_two).1 (hk ▸ n.isLt)

/-- The size check is the conditions of 46_facade.md R210. -/
theorem sizesLegal_iff {b : BuildParams} {m : Strategy} {f : SizeFields} :
    sizesLegal b m f = true ↔ SizesInRange b m f := by
  cases m with
  | static => exact iff_of_true rfl trivial
  | gshare | localHist | tournament =>
    simp only [sizesLegal, widthLegal, SizesInRange, Bool.and_eq_true, decide_eq_true_eq, and_assoc]
  | custom =>
    simp only [sizesLegal, SizesInRange, Bool.and_eq_true, decide_eq_true_eq, isPowerOfTwo_iff,
      and_assoc]

/-- An unconfigured block performs a CONFIGURE of legal sizes. -/
theorem exec_configureVariant_unconfigured {m : Strategy} {f : SizeFields} {s : State}
    (hs : Unconfigured s) (hf : SizesInRange s.build m f) :
    exec (configureVariant f m) s = .next (performed (configureVariant f m) s) :=
  exec_of_performable hs.fault
    (performable_configureVariant.2 ⟨hs.configured, sizesLegal_iff.2 hf⟩)

end Sys2Proof.Machine
end

