-- ==== Sys2Proof/Proofs/Gshare.lean ====
section
/-! PROOF. The global-history predictor: its PREDICT and TRAIN, and the entry that a branch TAKEN every
time settles on (42_gshare.md R130 to R135). -/

namespace Sys2Proof.Machine

open Sys2Proof.Claims

/-- Settles O18: the PREDICT of a running block, whose prediction is `globalPredict`. -/
theorem predictGshareReadsThePht : Obligations.PredictGshareReadsThePht :=
  fun _ pc h => runsAs_predictVariant pc h

/-- Settles O19: the TRAIN of a running block is `globalTrain`, whose one PHT write the table law reads
back. -/
theorem trainGshareMovesOneCounterAndShiftsGhr :
    Obligations.TrainGshareMovesOneCounterAndShiftsGhr := by
  intro s pc o h hwf
  refine ⟨respond 0 false (globalTrain pc o s), ?runs, ?frame, ?entries⟩
  case runs => exact runsAs_trainVariant pc o h nofun
  case frame => rfl
  case entries => exact readPht_globalTrain pc o hwf

/-! ## A branch TAKEN every time -/

/-- A history that keeps shifting in `o` holds it in as many bits as it shifted (41_counter.md R115). -/
theorem getLsbD_shin_iterate {w n j : Nat} (h : BitVec w) (o : Bool) (hw : j < w) (hn : j < n)
    (k : Nat) (hk : j < k) : ((shin · o n)^[k] h).getLsbD j = o := by
  induction k generalizing j with
  | zero => exact absurd hk (Nat.not_lt_zero j)
  | succ k ih =>
    rw [Function.iterate_succ_apply', getLsbD_shin _ _ _ _ hw hn]
    cases j with
    | zero => rfl
    | succ j => exact ih (Nat.lt_of_succ_lt hw) (Nat.lt_of_succ_lt hn) (Nat.lt_of_succ_lt_succ hk)

/-- After `n` or more TAKEN outcomes a history of `n` bits is all ones (42_gshare.md R133). -/
theorem shin_true_iterate {w n k : Nat} (h : BitVec w) (hn : 1 ≤ n) (hk : n ≤ k) :
    (shin · true n)^[k] h = mask w n := by
  apply BitVec.eq_of_getLsbD_eq
  intro j hj
  rw [getLsbD_mask]
  by_cases hjn : j < n
  · rw [getLsbD_shin_iterate h true hj hjn k (Nat.lt_of_lt_of_le hjn hk)]
    simp [hj, hjn]
  · obtain ⟨k, rfl⟩ := Nat.exists_eq_succ_of_ne_zero (Nat.ne_of_gt (Nat.lt_of_lt_of_le hn hk))
    rw [Function.iterate_succ_apply', getLsbD_shin_of_le _ _ (Nat.le_of_not_lt hjn)]
    simp [hjn]

/-- Folding with all ones complements the bits the mask keeps (42_gshare.md R130). -/
theorem xor_mask_and_mask {w : Nat} (x : BitVec w) (n : Nat) :
    (x ^^^ mask w n) &&& mask w n = ~~~x &&& mask w n := by
  ext j hj
  simp only [BitVec.getElem_and, BitVec.getElem_xor, BitVec.getElem_not]
  cases (mask w n)[j] <;> simp

/-- `n` TRAIN words of one branch and one outcome shift the outcome into GHR `n` times and keep G. -/
theorem runSteps_replicate_trainGshare (pc : Pc) (o : Bool) (rest : List Word) (n : Nat) {s : State}
    (h : RunningUnder .gshare s) (hw : s.cmds = List.replicate n (trainWord pc o) ++ rest) :
    ∃ t, runSteps n s = .next t ∧ t.g = s.g ∧ t.ghr = (shin · o s.g.toNat)^[n] s.ghr := by
  induction n generalizing s with
  | zero => exact ⟨s, rfl, rfl, rfl⟩
  | succ n ih =>
    have hstep := step_trainWord h.fault h.configured h.strategy nofun hw
    have hrun := RunningUnder.performed_trainVariant (m := .gshare)
      (s := withCmds (List.replicate n (trainWord pc o) ++ rest) s)
      ⟨h.fault, h.configured, h.strategy⟩ pc o
    obtain ⟨t, ht, hg, hghr⟩ := ih hrun rfl
    exact ⟨t, (runSteps_succ n hstep).trans ht, hg, hghr⟩

/-- Settles O53: GHR shifts in G ones, and the index folds the pc with them. -/
theorem repeatedTakenBranchSettlesOnTheComplement :
    Obligations.RepeatedTakenBranchSettlesOnTheComplement := by
  intro n s pc rest h hpos hn hw
  obtain ⟨t, ht, hg, hghr⟩ := runSteps_replicate_trainGshare pc true rest n h hw
  rw [shin_true_iterate s.ghr hpos hn] at hghr
  exact ⟨t, ht, hg, hghr, by rw [gidx, hghr, hg, xor_mask_and_mask]⟩

end Sys2Proof.Machine
end

