-- ==== Sys2Proof/Proofs/FirstPrediction.lean ====
section
/-! PROOF. The first PREDICT after a CONFIGURE reads tables at their reset values (10_state.md R40,
95_test_vectors.md section 8). -/

namespace Sys2Proof.Machine

open Sys2Proof.Claims

/-! ## Predictions from fresh data -/

section
variable {m : Strategy} {s : State} (pc : Pc) (h : FreshData m s)
include h

/-- Every PHT counter is WeaklyNotTaken (42_gshare.md R131). -/
theorem FreshData.globalPredict (hm : hasGlobal m = true) : globalPredict pc s = false := by
  rw [Machine.globalPredict, readPht, (h.globalEmpty hm).2]
  rfl

/-- Every LPT counter is WeaklyNotTaken (43_local.md R147). -/
theorem FreshData.localPredict (hm : hasLocal m = true) : localPredict pc s = false := by
  rw [Machine.localPredict, readLpt, (h.localEmpty hm).2]
  rfl

end

/-- Weights of 0 add nothing (45_perceptron.md R178). -/
theorem featureSum_nil (h : FeatureHist) (p n : Nat) : featureSum h [] p n = 0 := by
  simp [featureSum_eq_sum]

/-- The sum of a row of zeros is 0 (45_perceptron.md R178). -/
theorem FreshData.ysum {s : State} (h : FreshData .custom s) (p : Nat) : ysum s p = 0 := by
  obtain ⟨-, hw, hb, -⟩ := h.bankEmpty rfl
  rw [Machine.ysum, readB, hw, hb, featureSum_nil]
  rfl

/-- Of the strategies that learn, only CUSTOM predicts TAKEN from fresh data; the Arbiter's choice does
not matter, as both its predictors say NOT_TAKEN (44_tournament.md R162). -/
theorem FreshData.predictTaken {m : Strategy} {s : State} (h : FreshData m s) (pc : Pc)
    (hm : m ≠ .static) : predictTaken pc s m = decide (m = .custom) := by
  cases m with
  | static => exact absurd rfl hm
  | gshare => exact h.globalPredict pc rfl
  | localHist => exact h.localPredict pc rfl
  | tournament =>
    rw [Machine.predictTaken, arbiterPredict, h.globalPredict pc rfl, h.localPredict pc rfl, ite_self]
    rfl
  | custom =>
    rw [Machine.predictTaken, h.ysum]
    rfl

/-! ## The first PREDICT -/

/-- A CONFIGURE of legal sizes leaves a running block with fresh data and STATUS 0 (46_facade.md R204). -/
theorem configured_fresh {m : Strategy} {f : SizeFields} {s t : State} (hs : Unconfigured s)
    (hf : SizesInRange s.build m f) (h : exec (configureVariant f m) s = .next t) :
    RunningUnder m t ∧ FreshData m t ∧ t.rspStatus = 0 := by
  cases h.symm.trans (exec_configureVariant_unconfigured hs hf)
  obtain ⟨-, -, hfault, -, hstatus⟩ := performed_frame (configureVariant f m) s
  obtain ⟨hglobal, hlocal, hchooser, hbank⟩ := freshData_initData m s
  rw [performed_configureVariant] at hfault hstatus ⊢
  exact ⟨⟨hfault.trans hs.fault, rfl, rfl⟩, ⟨hglobal, hlocal, hchooser, hbank⟩, hstatus⟩

/-- Only the PREDICT of CUSTOM writes data state (20_memory.md R64, 45_perceptron.md R179). -/
theorem predictData_of_ne_custom {m : Strategy} (pc : Pc) (s : State) (hm : m ≠ .custom) :
    predictData pc s m = s := by
  cases m with
  | custom => exact absurd rfl hm
  | static | gshare | localHist | tournament => rfl

/-- Under GSHARE, LOCAL and TOURNAMENT the first PREDICT answers NOT_TAKEN and changes nothing else. -/
theorem firstPrediction_notTaken {m : Strategy} {f : SizeFields} {s t : State} (pc : Pc)
    (hm : m ≠ .static) (hm' : m ≠ .custom) (hs : Unconfigured s) (hf : SizesInRange s.build m f)
    (h : exec (configureVariant f m) s = .next t) :
    exec (predictVariant pc m) t = .next { t with rspTaken := false } := by
  obtain ⟨hrun, hfresh, hstatus⟩ := configured_fresh hs hf h
  obtain ⟨hexec, -⟩ := runsAs_predictVariant pc hrun
  rw [hexec, performed_predictVariant, hfresh.predictTaken pc hm, decide_eq_false hm',
    predictData_of_ne_custom pc t hm', ← hstatus]
  rfl

/-- Settles O31: no counter is above WeaklyNotTaken, and the perceptron's sum is 0, which is TAKEN. -/
theorem firstPredictionAfterConfigure : Obligations.FirstPredictionAfterConfigure := by
  intro s t f pc hs
  refine ⟨?gshare, ?localHist, ?tournament, fun hf h => ?custom⟩
  case gshare => exact firstPrediction_notTaken (m := .gshare) pc (by decide) (by decide) hs
  case localHist => exact firstPrediction_notTaken (m := .localHist) pc (by decide) (by decide) hs
  case tournament => exact firstPrediction_notTaken (m := .tournament) pc (by decide) (by decide) hs
  case custom =>
    obtain ⟨hrun, hfresh, -⟩ := configured_fresh (m := .custom) hs hf h
    obtain ⟨hexec, -⟩ := runsAs_predictVariant pc hrun
    exact ⟨_, hexec, hfresh.predictTaken pc (by decide), hfresh.ysum _⟩

end Sys2Proof.Machine
end

