-- ==== Sys2Proof/Proofs/LocalHistory.lean ====
section
/-! PROOF. The local-history predictor: its PREDICT and TRAIN, and that entries wider than L bits predict
the same (43_local.md R145 to R150). -/

namespace Sys2Proof.Machine

open Sys2Proof.Claims

/-- Settles O20: the PREDICT of a running block, whose prediction is `localPredict`. -/
theorem predictLocalReadsTheLpt : Obligations.PredictLocalReadsTheLpt :=
  fun _ pc h => runsAs_predictVariant pc h

/-- Settles O21: the TRAIN of a running block is `localTrain`, whose two table writes the table laws read
back. -/
theorem trainLocalMovesThePreUpdateEntry : Obligations.TrainLocalMovesThePreUpdateEntry := by
  intro s pc o h hwf
  refine ⟨respond 0 false (localTrain pc o s), ?runs, ?frame, ?counters, ?histories⟩
  case runs => exact runsAs_trainVariant pc o h nofun
  case frame => rfl
  case counters => exact readLpt_localTrain pc o hwf
  case histories => exact readLht_localTrain pc o hwf

/-! ## Entries wider than L bits -/

/-- An entry of at least `n` bits, or without a mask, keeps the low `n` bits of what it is given. -/
theorem keepBits_modEq {width : Option Nat} {n : Nat} (hwidth : ∀ K, width = some K → n ≤ K)
    (v : Nat) : keepBits width v ≡ v [MOD 2 ^ n] := by
  cases width with
  | none => rfl
  | some K => exact Nat.mod_mod_of_dvd v (Nat.pow_dvd_pow 2 (hwidth K rfl))

/-- The low `n` bits of a shifted history come from the low `n` bits of the history, so that a wider entry
shifts them as an entry of `n` bits does (41_counter.md R115). -/
theorem keepBits_shift_mod {width : Option Nat} {w n v : Nat} {h : BitVec w} (hn : n ≤ w)
    (hwidth : ∀ K, width = some K → n ≤ K) (hv : v % 2 ^ n = h.toNat) (o : Bool) :
    keepBits width (2 * v + o.toNat) % 2 ^ n = (shin h o n).toNat := by
  have hlow : h.toNat ≡ v [MOD 2 ^ n] := hv ▸ Nat.mod_modEq v (2 ^ n)
  rw [toNat_shin h o hn]
  exact (keepBits_modEq hwidth _).trans ((hlow.symm.mul_left 2).add_right o.toNat)

/-- The implementation `x` with wide entries stands for the state `u` of the model: the same sizes and LPT,
and every LHT entry of `u` is the low L bits of the wide one (43_local.md R150). -/
structure WidensLocal (x : (Nat → Nat) × State) (u : State) : Prop where
  l : x.2.l = u.l
  p : x.2.p = u.p
  lpt : x.2.lpt = u.lpt
  tables : Memory.wf u = true
  lowBits : ∀ a, x.1 a % 2 ^ u.l.toNat = (readLht u a).toNat

namespace WidensLocal

variable {x : (Nat → Nat) × State} {u : State}

theorem aidx_eq (h : WidensLocal x u) (pc : Pc) : aidx pc x.2 = aidx pc u := by
  rw [aidx, aidx, h.p]

theorem readLpt_eq (h : WidensLocal x u) (i : Nat) : readLpt x.2 i = readLpt u i := by
  rw [readLpt, readLpt, h.lpt]

/-- Both implementations select the same LPT entry, as the index masks the history to L bits
(43_local.md R146). -/
theorem hidx_eq (h : WidensLocal x u) (pc : Pc) :
    x.1 (aidx pc x.2) % 2 ^ x.2.l.toNat = hidx pc u := by
  rw [hidx, toNat_and_mask, h.aidx_eq, h.l, ← h.lowBits, Nat.mod_mod]

theorem widePredict_eq (h : WidensLocal x u) (pc : Pc) :
    widePredict pc x.1 x.2 = localPredict pc u := by
  rw [widePredict, localPredict, h.hidx_eq, h.readLpt_eq]

/-- Every entry of the wide LHT after a training: only that of the address is written (43_local.md R148). -/
theorem wideTrain_fst (h : WidensLocal x u) (width : Option Nat) (b : Pc × Bool) (a : Nat) :
    (wideTrain width x b).1 a =
      if a = aidx b.1 u then keepBits width (2 * x.1 (aidx b.1 u) + b.2.toNat) else x.1 a := by
  simp only [wideTrain, Function.update_apply, h.aidx_eq]

/-- The rest of the wide implementation moves the LPT entry that the model moves (43_local.md R149). -/
theorem wideTrain_snd (h : WidensLocal x u) (width : Option Nat) (b : Pc × Bool) :
    (wideTrain width x b).2 =
      writeLpt (hidx b.1 u) (upd2 (readLpt u (hidx b.1 u)) b.2) x.2 := by
  simp only [wideTrain, h.hidx_eq, h.readLpt_eq]

/-- A training of both keeps the relation. -/
theorem train (h : WidensLocal x u) {width : Option Nat} (hl : u.l.toNat ≤ 32)
    (hwidth : ∀ K, width = some K → u.l.toNat ≤ K) (b : Pc × Bool) :
    WidensLocal (wideTrain width x b) (localTrain b.1 b.2 u) := by
  refine ⟨h.l, h.p, ?lpt, Memory.wf_localTrain b.1 b.2 h.tables, fun a => ?lowBits⟩
  case lpt => rw [h.wideTrain_snd, writeLpt, h.lpt, localTrain_eq]
  case lowBits =>
    rw [h.wideTrain_fst, readLht_localTrain b.1 b.2 h.tables]
    by_cases ha : a = aidx b.1 u
    · rw [if_pos ha, if_pos ha]
      exact keepBits_shift_mod hl hwidth (h.lowBits _) b.2
    · rw [if_neg ha, if_neg ha]
      exact h.lowBits a

/-- Any sequence of trainings keeps the relation, and none of them writes L. -/
theorem foldl_train (h : WidensLocal x u) {width : Option Nat} (hl : u.l.toNat ≤ 32)
    (hwidth : ∀ K, width = some K → u.l.toNat ≤ K) (bs : List (Pc × Bool)) :
    WidensLocal (bs.foldl (wideTrain width) x)
      (bs.foldl (fun s b => localTrain b.1 b.2 s) u) ∧
      (bs.foldl (fun s b => localTrain b.1 b.2 s) u).l = u.l := by
  induction bs generalizing x u with
  | nil => exact ⟨h, rfl⟩
  | cons b bs ih => exact ih (h.train hl hwidth b) hl hwidth

end WidensLocal

/-- Settles O57: the two implementations start related, every training keeps them so, and related ones
predict the same. -/
theorem widerLocalHistoryPredictsTheSame : Obligations.WiderLocalHistoryPredictsTheSame := by
  intro width bs lht s hl hwidth hwf hlow
  have hstart : WidensLocal (lht, s) s := ⟨rfl, rfl, rfl, hwf, hlow⟩
  obtain ⟨hend, hkeep⟩ := hstart.foldl_train hl hwidth bs
  exact ⟨hkeep ▸ hend.lowBits, hend.lpt, hend.widePredict_eq⟩

end Sys2Proof.Machine
end

