-- ==== Sys2Proof/Proofs/Tournament.lean ====
section
/-! PROOF. The Arbiter: its PREDICT and TRAIN, when the chooser moves, and that the three parts of its
training may be performed in any order (44_tournament.md R161 to R167). -/

namespace Sys2Proof.Machine

open Sys2Proof.Claims

/-! ## PREDICT -/

theorem dir2_iff {c : Counter} : dir2 c = true ↔ 1 < c.toNat := decide_eq_true_iff

/-- The chooser's choice read as a number (44_tournament.md R161). -/
theorem arbiterPredict_eq (pc : Pc) (s : State) :
    arbiterPredict pc s =
      if 1 < (readCh s (cidx pc s)).toNat then globalPredict pc s else localPredict pc s := by
  simp only [arbiterPredict, dir2_iff]

/-- Settles O22: the PREDICT of a running block, whose prediction is `arbiterPredict`. -/
theorem predictTournamentFollowsTheChooser : Obligations.PredictTournamentFollowsTheChooser := by
  intro s pc h
  have hruns := runsAs_predictVariant pc h
  rw [performed_predictVariant, predictTaken, arbiterPredict_eq] at hruns
  exact hruns

/-! ## TRAIN, table by table -/

/-- The chooser after a training in which the predictions agree (44_tournament.md R165). -/
theorem ch_arbiterTrain_of_agree {pc : Pc} {s : State} (o : Bool)
    (h : globalPredict pc s = localPredict pc s) : (arbiterTrain pc o s).ch = s.ch := by
  rw [arbiterTrain_eq, chooserTrain_of_agree pc o s h]

/-- The chooser after a training in which the predictions differ (44_tournament.md R165). -/
theorem readCh_arbiterTrain_of_disagree {pc : Pc} {s : State} (o : Bool) (hwf : Memory.wf s = true)
    (h : globalPredict pc s ≠ localPredict pc s) (j : Nat) :
    readCh (arbiterTrain pc o s) j =
      if j = cidx pc s then
        if globalPredict pc s = o then inc2 (readCh s (cidx pc s)) else dec2 (readCh s (cidx pc s))
      else readCh s j := by
  rw [arbiterTrain_eq, chooserTrain_of_disagree pc o s h]
  exact readCh_writeCh _ _ j hwf

theorem readPht_arbiterTrain (pc : Pc) (o : Bool) (s : State) (j : Nat) :
    readPht (arbiterTrain pc o s) j = readPht (globalTrain pc o s) j := by
  rw [arbiterTrain_eq]; rfl

theorem readLpt_arbiterTrain (pc : Pc) (o : Bool) (s : State) (j : Nat) :
    readLpt (arbiterTrain pc o s) j = readLpt (localTrain pc o s) j := by
  rw [arbiterTrain_eq]; rfl

theorem readLht_arbiterTrain (pc : Pc) (o : Bool) (s : State) (j : Nat) :
    readLht (arbiterTrain pc o s) j = readLht (localTrain pc o s) j := by
  rw [arbiterTrain_eq]; rfl

/-- Of two predictions, both or neither equal the outcome only when they are the same. -/
theorem eq_of_right_iff_right : ∀ g l o : Bool, (g = o ↔ l = o) → g = l := by decide

/-- Settles O23: the TRAIN of a running block is `arbiterTrain`; one predictor alone is right only when the
two differ, and both or neither only when they agree. -/
theorem trainTournamentTrainsAllThreeParts : Obligations.TrainTournamentTrainsAllThreeParts := by
  intro s pc o h hwf c i hist gc lc
  refine ⟨respond 0 false (arbiterTrain pc o s), ?runs, ?frame, ?globalAlone, ?localAlone, ?alike,
    fun j => ?pht, fun j => ?lpt, fun j => ?lht⟩
  case runs => exact runsAs_trainVariant pc o h nofun
  case frame => rw [arbiterTrain_eq]; rfl
  case globalAlone =>
    rintro ⟨hg : globalPredict pc s = o, hl : localPredict pc s ≠ o⟩ j
    have hread := readCh_arbiterTrain_of_disagree o hwf (fun heq => hl (heq ▸ hg)) j
    rwa [if_pos hg] at hread
  case localAlone =>
    rintro ⟨hl : localPredict pc s = o, hg : globalPredict pc s ≠ o⟩ j
    have hread := readCh_arbiterTrain_of_disagree o hwf (fun heq => hg (heq ▸ hl)) j
    rwa [if_neg hg] at hread
  case alike =>
    exact fun halike => ch_arbiterTrain_of_agree o (eq_of_right_iff_right _ _ o halike)
  case pht => exact (readPht_arbiterTrain pc o s j).trans (readPht_globalTrain pc o hwf j)
  case lpt => exact (readLpt_arbiterTrain pc o s j).trans (readLpt_localTrain pc o hwf j)
  case lht => exact (readLht_arbiterTrain pc o s j).trans (readLht_localTrain pc o hwf j)

/-- Settles O54: the TRAIN of a running block is `arbiterTrain`, which moves the chooser in the second case
alone. -/
theorem chooserMovesOnlyOnDisagreement : Obligations.ChooserMovesOnlyOnDisagreement := by
  intro s t pc o h hwf ht
  obtain rfl : respond 0 false (arbiterTrain pc o s) = t :=
    Host.Outcome.next.inj ((runsAs_trainVariant pc o h nofun).1.symm.trans ht)
  refine ⟨ch_arbiterTrain_of_agree o, fun hne j => ?_⟩
  refine (readCh_arbiterTrain_of_disagree o hwf hne j).trans ?_
  by_cases hj : j = cidx pc s
  · subst hj; simp
  · simp [hj]

/-! ## The order of the three parts -/

/-- The chooser is outside what Global reads and writes (44_tournament.md R167). -/
theorem globalTrain_withCh (pc : Pc) (o : Bool) (s : State) (c : Table Counter) :
    globalTrain pc o { s with ch := c } = { globalTrain pc o s with ch := c } := rfl

/-- The chooser is outside what Local reads and writes (44_tournament.md R167). -/
theorem localTrain_withCh (pc : Pc) (o : Bool) (s : State) (c : Table Counter) :
    localTrain pc o { s with ch := c } = { localTrain pc o s with ch := c } := rfl

/-- Neither of Global and Local reads what the other writes (44_tournament.md R167). -/
theorem globalTrain_localTrain_comm (pc : Pc) (o : Bool) (s : State) :
    globalTrain pc o (localTrain pc o s) = localTrain pc o (globalTrain pc o s) := rfl

/-- Settles O55: the chooser update writes CH, which both trainings leave out, and these commute. -/
theorem arbiterPartsCommute : Obligations.ArbiterPartsCommute := by
  intro s pc o ch'
  have hfirst : arbiterTrain pc o s = localTrain pc o (globalTrain pc o { s with ch := ch' }) := by
    rw [arbiterTrain, chooserTrain_eq]
  have hbetween : arbiterTrain pc o s = localTrain pc o { globalTrain pc o s with ch := ch' } :=
    hfirst.trans (congrArg (localTrain pc o) (globalTrain_withCh pc o s ch'))
  have hlast : arbiterTrain pc o s = { localTrain pc o (globalTrain pc o s) with ch := ch' } :=
    hbetween.trans (localTrain_withCh pc o (globalTrain pc o s) ch')
  have hlast' : arbiterTrain pc o s = { globalTrain pc o (localTrain pc o s) with ch := ch' } := by
    rw [globalTrain_localTrain_comm, hlast]
  refine ⟨hfirst, ?first', hbetween, ?between', hlast, hlast', ?update⟩
  case first' => rw [globalTrain_localTrain_comm, hfirst]
  case between' => exact hlast'.trans (globalTrain_withCh pc o (localTrain pc o s) ch').symm
  case update => rw [globalTrain_localTrain_comm, arbiterTrain]

end Sys2Proof.Machine
end

