-- ==== Sys2Proof/Proofs/Perceptron.lean ====
section
/-! PROOF. The perceptron predictor: its PREDICT and TRAIN, the pairing check, and that a record is never
stale (45_perceptron.md R176 to R189). -/

namespace Sys2Proof.Machine

open Sys2Proof.Claims

/-! ## PREDICT -/

/-- The accumulator forms one exact sum (45_perceptron.md R178). -/
theorem ysum_eq_sumOf (s : State) (p : Nat) : ysum s p = sumOf s p := by
  rw [ysum, featureSum_eq_sum]; rfl

/-- NP has 14 bits, so the row may be formed in the width of the pc (45_perceptron.md R176). -/
theorem pidx_eq_setWidth (pc : Pc) (s : State) :
    pidx pc s = (pc &&& (s.np.setWidth 32 - 1)).setWidth 14 := by
  have hsub : (s.np.setWidth 32 - 1).setWidth 14 = s.np - 1 := by bv_omega
  rw [pidx, BitVec.setWidth_and, hsub]

/-- Settles O24: the PREDICT of a running block, whose record holds `ysum` of row `pidx`. -/
theorem predictCustomAnswersTheSignOfTheSum : Obligations.PredictCustomAnswersTheSignOfTheSum := by
  intro s pc h p y
  have hp : pidx pc s = p := pidx_eq_setWidth pc s
  have hy : ysum s (pidx pc s).toNat = y := by rw [hp]; exact ysum_eq_sumOf s p.toNat
  have hruns := runsAs_predictVariant pc h
  rw [performed_predictVariant, predictTaken, predictData, recordScratch, hy, hp] at hruns
  exact hruns

/-! ## TRAIN of a paired record -/

theorem paired_iff {pc : Pc} {s : State} : paired pc s = true ↔ s.scV = true ∧ s.scPc = pc := by
  simp [paired]

/-- The training condition: the prediction was wrong, or `y` is below the threshold
(45_perceptron.md R180). -/
theorem trainingNeeded_iff {y : Int} {o : Bool} {th : BitVec 16} :
    trainingNeeded y o th = true ↔ decide (0 ≤ y) ≠ o ∨ y.natAbs < th.toNat := by
  simp [trainingNeeded, perceptronTaken]

section
variable {o : Bool} {s : State}

/-- Every weight after a training: those of row SC.IDX take one clamped step (45_perceptron.md R181). -/
theorem toInt_readW_perceptronTrain (hwf : Memory.wf s = true)
    (hupd : trainingNeeded s.scY o s.th = true) {q j : Nat} (hj : j < 256) :
    (readW (perceptronTrain o s) q j).toInt =
      if q = s.scIdx.toNat ∧ j < s.nw.toNat then
        max (-128) (min 127 ((readW s q j).toInt + if s.h.getLsbD j = o then 1 else -1))
      else (readW s q j).toInt := by
  obtain ⟨-, -, -, -, hw, -⟩ := (Memory.wf_iff s).1 hwf
  have hrow := read_trainRow s.scIdx.toNat s.h o s.nw.toNat (Nat.le_of_lt s.nw.isLt) s.w hw q j hj
  rw [perceptronTrain_eq, if_pos hupd, readW, hrow, apply_ite BitVec.toInt, toInt_trainedWeight]
  rfl

/-- Every bias after a training: that of row SC.IDX takes one clamped step (45_perceptron.md R182). -/
theorem toInt_readB_perceptronTrain (hwf : Memory.wf s = true)
    (hupd : trainingNeeded s.scY o s.th = true) (q : Nat) :
    (readB (perceptronTrain o s) q).toInt =
      if q = s.scIdx.toNat then
        max (-128) (min 127 ((readB s q).toInt + if o then 1 else -1))
      else (readB s q).toInt := by
  have hread := readB_writeB s.scIdx.toNat (trainedBias (readB s s.scIdx.toNat) o) q hwf
  rw [perceptronTrain_eq, if_pos hupd, if_pos hupd]
  refine (congrArg BitVec.toInt hread).trans ?_
  by_cases hq : q = s.scIdx.toNat
  · rw [if_pos hq, if_pos hq, toInt_trainedBias, hq]
  · rw [if_neg hq, if_neg hq]

/-- A confident and correct prediction leaves the bank alone (45_perceptron.md R180). -/
theorem perceptronTrain_keeps_bank (hupd : ¬ trainingNeeded s.scY o s.th = true) :
    (perceptronTrain o s).w = s.w ∧ (perceptronTrain o s).b = s.b := by
  rw [perceptronTrain_eq]
  exact ⟨if_neg hupd, if_neg hupd⟩

end

/-- Settles O25: the TRAIN of a running block is `perceptronTrain` once it pairs, and the table laws read
the trained row back. -/
theorem trainCustomTakesOneClampedStep : Obligations.TrainCustomTakesOneClampedStep := by
  intro s pc o h hwf hv hpc p upd
  refine ⟨respond 0 false (perceptronTrain o s), ?runs, ?frame, fun hupd q j hj => ?weights,
    fun hupd q => ?biases, fun hupd => ?bank⟩
  case runs => exact runsAs_trainVariant pc o h fun _ => paired_iff.2 ⟨hv, hpc⟩
  case frame => rw [perceptronTrain_eq]; rfl
  case weights =>
    exact toInt_readW_perceptronTrain hwf (trainingNeeded_iff.2 hupd) (Nat.lt_succ_of_lt hj)
  case biases => exact toInt_readB_perceptronTrain hwf (trainingNeeded_iff.2 hupd) q
  case bank => exact perceptronTrain_keeps_bank (mt trainingNeeded_iff.1 hupd)

/-- The record of an unconsumed PREDICT is the row and the sum formed afresh: NP is a power of two, so the
row is a remainder (45_perceptron.md R176, R189). -/
theorem MachineInv.scratch_fresh {s : State} (h : MachineInv s) (hc : s.configured = true)
    (hm : s.strategy = .custom) (hv : s.scV = true) :
    s.scIdx.toNat = s.scPc.toNat % s.np.toNat ∧ s.scY = sumOf s s.scIdx.toNat := by
  have hsizes := sizesLegal_iff.1 (h.sizes hc)
  rw [hm] at hsizes
  obtain ⟨⟨-, -, k, hk⟩, -⟩ := hsizes
  obtain ⟨hidx, hy⟩ := h.scratch hc hm hv
  exact ⟨by rw [hidx, pidx_eq_mod s.scPc hk], by rw [hy, ysum_eq_sumOf]⟩

/-- Settles O56: the training reads SC.IDX and SC.Y, which the invariant says are the row and the sum
formed afresh. -/
theorem scratchRecordIsNeverStale : Obligations.ScratchRecordIsNeverStale := by
  intro s pc o hinv h hv hpc
  obtain ⟨hp, hy⟩ := hinv.scratch_fresh h.configured h.strategy hv
  obtain ⟨t, ⟨hexec, -⟩, htrained⟩ := trainCustomTakesOneClampedStep s pc o h hinv.tables hv hpc
  dsimp only
  rw [← hpc, ← hp, ← hy]
  exact ⟨t, hpc ▸ hexec, htrained⟩

/-! ## TRAIN without a record of the pc -/

theorem paired_eq_false_iff {pc : Pc} {s : State} :
    paired pc s = false ↔ s.scV = false ∨ s.scPc ≠ pc := by
  rw [← Bool.not_eq_true, paired_iff, not_and_or, Bool.not_eq_true]

/-- A step on the word of an unpaired TRAIN raises TRAIN_UNPAIRED (45_perceptron.md R185). -/
theorem step_trainWord_unpaired {s : State} {pc : Pc} {o : Bool} {rest : List Word}
    (h : RunningUnder .custom s) (hpair : paired pc s = false)
    (hw : s.cmds = trainWord pc o :: rest) :
    step s = .next (raise .trainUnpaired (withCmds rest s)) := by
  have hf : (withCmds rest s).fault = false := h.fault
  rw [step_eq_wordState hw, ← withCmds, wordState_command hf (decodeCommand_trainWord pc o),
    commandState]
  exact congrArg _ ((if_pos h.configured).trans (if_pos ⟨h.strategy, hpair⟩))

/-- Settles O37: the pairing check fails, in `exec` and in the step on the word. -/
theorem unpairedTrainRaisesTrainUnpaired : Obligations.UnpairedTrainRaisesTrainUnpaired := by
  intro s pc o h hsc
  have hpair : paired pc s = false := paired_eq_false_iff.2 hsc
  refine ⟨?exec, fun rest => ?step⟩
  case exec =>
    have hexec := exec_trainVariant pc o .custom s
    rw [if_pos ⟨rfl, hpair⟩, underStrategy_running _ s _ h.fault h.configured h.strategy] at hexec
    exact hexec
  case step =>
    exact step_trainWord_unpaired (s := withCmds (trainWord pc o :: rest) s)
      ⟨h.fault, h.configured, h.strategy⟩ hpair rfl

/-- A PREDICT leaves a running block running. -/
theorem RunningUnder.performed_predictVariant {m : Strategy} {s : State} (h : RunningUnder m s)
    (pc : Pc) : RunningUnder m (performed (predictVariant pc m) s) := by
  obtain ⟨hfault, hconf⟩ := performed_predictVariant_running pc m h.fault h.configured
  obtain ⟨-, hm, -⟩ := performed_predictVariant_frame pc m s
  exact ⟨hfault, hconf, hm.trans h.strategy⟩

/-- Settles O38: the second PREDICT overwrites the record of the first, and its TRAIN consumes it. -/
theorem onlyTheLastPredictCanBeTrainedOnce : Obligations.OnlyTheLastPredictCanBeTrainedOnce := by
  intro s pcA pcB o h
  have ht := h.performed_predictVariant pcA
  have hu := ht.performed_predictVariant pcB
  have hv := hu.performed_trainVariant pcB o
  refine ⟨_, _, _, (runsAs_predictVariant pcA h).1, (runsAs_predictVariant pcB ht).1,
    fun hne oA => ?other, ?last, hv.fault, fun pcC oC => ?consumed⟩
  case other => exact (unpairedTrainRaisesTrainUnpaired _ pcA oA hu (.inr hne.symm)).1
  case last => exact (runsAs_trainVariant pcB o hu fun _ => paired_predictCustom pcB _).1
  case consumed => exact (unpairedTrainRaisesTrainUnpaired _ pcC oC hv (.inl rfl)).1

end Sys2Proof.Machine
end

