-- ==== Sys2Proof/Proofs/Facade.lean ====
section
/-! PROOF. CONFIGURE in its five variants and by a bad tag, and PREDICT and TRAIN under STATIC
(46_facade.md sections 2 and 3). -/

namespace Sys2Proof.Machine

open Sys2Proof.Claims

/-! ## The word of a CONFIGURE -/

theorem decodeCommand_configureWord (t : BitVec 4) (f : SizeFields) :
    decodeCommand (configureWord t f) = .ok (.configure t f) :=
  decodeCommand_eq_ok_iff.2 rfl

/-- A step on the word of a CONFIGURE, whatever its tag and sizes (60_exceptions.md R239). -/
theorem step_configureWord {s : State} (t : BitVec 4) (f : SizeFields) (rest : List Word)
    (hf : s.fault = false) :
    step (withCmds (configureWord t f :: rest) s) =
      .next (commandState (withCmds rest s) (.configure t f)) := by
  have hf' : (withCmds rest s).fault = false := hf
  rw [step_eq_wordState (withCmds_cmds _ s), ← withCmds, withCmds_withCmds,
    wordState_command hf' (decodeCommand_configureWord t f)]

/-! ## CONFIGURE of an unconfigured block -/

/-- A tag that names no strategy comes before the sizes (60_exceptions.md R239, 46_facade.md
R211). -/
theorem commandState_configure_badTag {s : State} {t : BitVec 4} (f : SizeFields)
    (hc : s.configured = false) (ht : Strategy.ofTag t = none) :
    commandState s (.configure t f) = raise .cfgBadStrategy s := by
  simp [commandState, hc, ht]

/-- A strategy's own tag leaves the sizes to decide (46_facade.md R204, R210). -/
theorem commandState_configure_tag {s : State} (m : Strategy) (f : SizeFields)
    (hc : s.configured = false) :
    commandState s (.configure m.tag f) =
      if sizesLegal s.build m f then performed (configureVariant f m) s
      else raise .cfgBadSize s := by
  simp [commandState, hc, ofTag_eq_some_iff.2 rfl]

/-- The driver's words are no part of the lifecycle (60_exceptions.md R243). -/
theorem Unconfigured.withCmds {s : State} (hs : Unconfigured s) (ws : List Word) :
    Unconfigured (withCmds ws s) := ⟨hs.fault, hs.configured⟩

/-- A CONFIGURE does not read the driver's later words. -/
theorem performed_configureVariant_withCmds (f : SizeFields) (m : Strategy) (ws : List Word)
    (s : State) : performed (configureVariant f m) (withCmds ws s) =
      withCmds ws (performed (configureVariant f m) s) := by
  cases m <;> rfl

section
variable {m : Strategy} {f : SizeFields} {s : State}

/-- An unconfigured block performs a CONFIGURE of legal sizes, which its word stands for. -/
theorem runsAs_configureVariant (hs : Unconfigured s) (hf : SizesInRange s.build m f) :
    RunsAs (configureVariant f m) (configureWord m.tag f) s
      (performed (configureVariant f m) s) := by
  refine ⟨exec_configureVariant_unconfigured hs hf, fun rest => ?_⟩
  have hstep := step_configureWord m.tag f rest hs.fault
  have hl : sizesLegal (withCmds rest s).build m f = true := sizesLegal_iff.2 hf
  rw [commandState_configure_tag m f (hs.withCmds rest).configured, if_pos hl,
    performed_configureVariant_withCmds] at hstep
  exact hstep

/-- An unconfigured block takes CFG_BAD_SIZE on a CONFIGURE with a size out of range (46_facade.md
R210, 60_exceptions.md R240). -/
theorem exec_configureVariant_badSize (hs : Unconfigured s) (hf : ¬ SizesInRange s.build m f) :
    exec (configureVariant f m) s = .next (faultedWith 2 s) := by
  rw [exec_configureVariant]
  rcases configureAs_cases m f (initData m) s with ⟨hfault, -⟩ | ⟨-, hconf, -⟩ | ⟨-, -, -, h⟩ |
    ⟨-, -, hl, -⟩
  · exact absurd (hs.fault.symm.trans hfault) (by decide)
  · exact absurd (hs.configured.symm.trans hconf) (by decide)
  · exact h
  · exact absurd (sizesLegal_iff.1 hl) hf

end

/-- Settles O26: STATIC checks no size and has no data state to initialise. -/
theorem configureStaticLatchesTheFields : Obligations.ConfigureStaticLatchesTheFields :=
  fun _ _ hs => runsAs_configureVariant (m := .static) hs trivial

/-- Settles O27: an emptied table reads its reset value everywhere. -/
theorem configureGshareInitialisesThePht : Obligations.ConfigureGshareInitialisesThePht := by
  refine fun s f hs => ⟨fun hf => ⟨performed (.configureGshare f) s, ?runs, rfl, ?entries⟩,
    ?badSize⟩
  case runs => exact runsAs_configureVariant (m := .gshare) hs hf
  case entries => exact Table.read_nil Config.ctrInit
  case badSize => exact exec_configureVariant_badSize (m := .gshare) hs

/-- Settles O28: both emptied tables read their reset values everywhere. -/
theorem configureLocalInitialisesBothTables : Obligations.ConfigureLocalInitialisesBothTables := by
  refine fun s f hs => ⟨fun hf => ⟨performed (.configureLocal f) s, ?runs, rfl, fun i => ?entries⟩,
    ?badSize⟩
  case runs => exact runsAs_configureVariant (m := .localHist) hs hf
  case entries => exact ⟨Table.read_nil 0 i, Table.read_nil Config.ctrInit i⟩
  case badSize => exact exec_configureVariant_badSize (m := .localHist) hs

/-- Settles O29: the four emptied tables read their reset values everywhere, CH that of the build
parameters. -/
theorem configureTournamentInitialisesFourTables :
    Obligations.ConfigureTournamentInitialisesFourTables := by
  refine fun s f hs =>
    ⟨fun hf => ⟨performed (.configureTournament f) s, ?runs, rfl, fun i => ?entries⟩, ?badSize⟩
  case runs => exact runsAs_configureVariant (m := .tournament) hs hf
  case entries =>
    exact ⟨Table.read_nil Config.ctrInit i, Table.read_nil 0 i, Table.read_nil Config.ctrInit i,
      Table.read_nil s.build.chooserInit i⟩
  case badSize => exact exec_configureVariant_badSize (m := .tournament) hs

/-- Settles O30: the emptied W and B read 0 everywhere; of the record only SC.V is written. -/
theorem configureCustomClearsTheBank : Obligations.ConfigureCustomClearsTheBank := by
  refine fun s f hs =>
    ⟨fun hf => ⟨performed (.configureCustom f) s, ?runs, rfl, fun p i => ?weights, ?biases⟩,
      ?badSize⟩
  case runs => exact runsAs_configureVariant (m := .custom) hs hf
  case weights => exact Table.read_nil 0 (weightIndex p i)
  case biases => exact Table.read_nil 0
  case badSize => exact exec_configureVariant_badSize (m := .custom) hs

/-- Settles O35: the tags from 5 on name no strategy. -/
theorem unknownTagRaisesCfgBadStrategy : Obligations.UnknownTagRaisesCfgBadStrategy := by
  intro s t f rest hs ht
  have hstep := step_configureWord t f rest hs.fault
  rw [commandState_configure_badTag f (hs.withCmds rest).configured
    (ofTag_eq_none_iff.2 ht)] at hstep
  exact hstep

/-! ## The static strategy -/

/-- Settles O16: the PREDICT of a running block, whose prediction is STATIC_DIR. -/
theorem predictStaticAnswersStaticDir : Obligations.PredictStaticAnswersStaticDir :=
  fun _ pc h => runsAs_predictVariant pc h

/-- Settles O17: the TRAIN of a running block, which leaves the data state as it is. -/
theorem trainStaticHasNoEffect : Obligations.TrainStaticHasNoEffect :=
  fun _ pc o h => runsAs_trainVariant pc o h nofun

end Sys2Proof.Machine
end

