-- ==== Sys2Proof/Proofs/FaultEntry.lean ====
section
/-! PROOF. When each cause is raised and what fault entry writes, for every operation and every word
(60_exceptions.md sections 1 to 3). -/

namespace Sys2Proof.Machine

open Sys2Proof.Claims

/-- Settles O32: the six codes, by evaluation. -/
theorem causeCodesAreOneToSix : Obligations.CauseCodesAreOneToSix := rfl

/-! ## A step on a presented word, with the driver's later words -/

theorem step_withCmds (s : State) (w : Word) (rest : List Word) :
    step (withCmds (w :: rest) s) = .next (wordState w (withCmds rest s)) :=
  step_eq_wordState (withCmds_cmds _ s)

section
variable {s : State} {w : Word} (rest : List Word)

theorem step_of_decodeCommand {c : Command} (hf : s.fault = false)
    (hd : decodeCommand w = .ok c) :
    step (withCmds (w :: rest) s) = .next (commandState (withCmds rest s) c) :=
  (step_withCmds s w rest).trans
    (congrArg _ (wordState_command (s := withCmds rest s) hf hd))

/-- A word that decodes to no command raises ILLEGAL_COMMAND (60_exceptions.md R237). -/
theorem step_of_decodeCommand_error {r : Reject} (hf : s.fault = false)
    (hd : decodeCommand w = .error r) :
    step (withCmds (w :: rest) s) = .next (raise .illegalCommand (withCmds rest s)) :=
  (step_withCmds s w rest).trans
    (congrArg _ (wordState_illegal (s := withCmds rest s) hf hd))

end

/-! ## The lifecycle checks -/

theorem mode_configureVariant (f : SizeFields) (m : Strategy) :
    (configureVariant f m).mode = none := by
  cases m <;> rfl

theorem mode_predictVariant (pc : Pc) (m : Strategy) : (predictVariant pc m).mode = some m := by
  cases m <;> rfl

theorem mode_trainVariant (pc : Pc) (o : Bool) (m : Strategy) :
    (trainVariant pc o m).mode = some m := by
  cases m <;> rfl

section
variable {s : State}

theorem commandState_predict_unconfigured (pc : Pc) (hc : s.configured = false) :
    commandState s (.predict pc) = raise .notConfigured s :=
  if_neg (ne_true_of_eq_false hc)

theorem commandState_train_unconfigured (pc : Pc) (o : Bool) (hc : s.configured = false) :
    commandState s (.train pc o) = raise .notConfigured s :=
  if_neg (ne_true_of_eq_false hc)

theorem commandState_configure_configured (t : BitVec 4) (f : SizeFields)
    (hc : s.configured = true) : commandState s (.configure t f) = raise .reconfigure s :=
  if_pos hc

/-- Before a CONFIGURE no operation that STRATEGY selects is performed (60_exceptions.md R234). -/
theorem exec_unconfigured {i : Instr} (hs : Unconfigured s) (hm : i.mode ≠ none) :
    exec i s = .next (raise .notConfigured s) := by
  rcases instr_variants i with ⟨f, m, rfl⟩ | ⟨pc, m, rfl⟩ | ⟨pc, o, m, rfl⟩
  · exact absurd (mode_configureVariant f m) hm
  · rw [exec_predictVariant, underStrategy_unconfigured _ _ _ hs.fault hs.configured]
  · rw [exec_trainVariant, underStrategy_unconfigured _ _ _ hs.fault hs.configured]

/-- A configured block performs no CONFIGURE (60_exceptions.md R235). -/
theorem exec_configure_configured {i : Instr} (hf : s.fault = false) (hc : s.configured = true)
    (hm : i.mode = none) : exec i s = .next (raise .reconfigure s) := by
  rcases instr_variants i with ⟨f, m, rfl⟩ | ⟨pc, m, rfl⟩ | ⟨pc, o, m, rfl⟩
  · simp [exec_configureVariant, configureAs, underConfigure, hf, hc]
  · exact absurd ((mode_predictVariant pc m).symm.trans hm) nofun
  · exact absurd ((mode_trainVariant pc o m).symm.trans hm) nofun

end

/-- Settles O33: NOT_CONFIGURED is found before STRATEGY is read. -/
theorem useBeforeConfigureRaisesNotConfigured :
    Obligations.UseBeforeConfigureRaisesNotConfigured := by
  refine fun s pc o hs => ⟨fun i hm => exec_unconfigured hs hm, fun rest => ?predict,
    fun rest => ?train⟩
  case predict =>
    have hstep := step_of_decodeCommand rest hs.fault (decodeCommand_predictWord pc)
    rw [commandState_predict_unconfigured pc (hs.withCmds rest).configured] at hstep
    exact hstep
  case train =>
    have hstep := step_of_decodeCommand rest hs.fault (decodeCommand_trainWord pc o)
    rw [commandState_train_unconfigured pc o (hs.withCmds rest).configured] at hstep
    exact hstep

/-- OP = 0x1 alone makes a word a CONFIGURE, whatever its other bits (30_encoding.md R86). -/
theorem decodeCommand_opConfigure (fields : BitVec 60) :
    let w : Word := 0x1#4 ++ fields
    decodeCommand w = .ok (.configure (stratField w) (sizeFields w)) :=
  if_pos (BitVec.extractLsb'_append_eq_left (a := 0x1#4) (b := fields))

/-- Settles O34: RECONFIGURE is found before the tag and the sizes are read. -/
theorem secondConfigureRaisesReconfigure : Obligations.SecondConfigureRaisesReconfigure := by
  refine fun s fields rest hf hc => ⟨fun i hm => exec_configure_configured hf hc hm, ?_⟩
  have hc' : (withCmds rest s).configured = true := hc
  have hstep := step_of_decodeCommand rest hf (decodeCommand_opConfigure fields)
  rw [commandState_configure_configured _ _ hc'] at hstep
  exact hstep

/-! ## The operands -/

/-- Settles O36: the size check fails, in `exec` and in the step on the word. -/
theorem outOfRangeSizeRaisesCfgBadSize : Obligations.OutOfRangeSizeRaisesCfgBadSize := by
  refine fun s m f hs hf => ⟨exec_configureVariant_badSize hs hf, fun rest => ?_⟩
  have hl : ¬ sizesLegal (withCmds rest s).build m f = true := fun hl => hf (sizesLegal_iff.1 hl)
  have hstep := step_configureWord m.tag f rest hs.fault
  rw [commandState_configure_tag m f (hs.withCmds rest).configured, if_neg hl] at hstep
  exact hstep

/-! ## Illegal words -/

/-- Settles O39: such a word is rejected before CONFIGURED is read. -/
theorem reservedWordRaisesIllegalCommand : Obligations.ReservedWordRaisesIllegalCommand := by
  intro s w rest hf op hres
  have hd : ∃ r, decodeCommand w = .error r := by
    simp only [decodeCommand_eq_error_iff, predictReserved, trainReserved, ne_eq,
      extractLsb'_eq_iff, opField_eq_iff]
    rcases hres with hop | hbits
    · exact ⟨.reservedOpcode, .inl ⟨rfl, hop⟩⟩
    · exact ⟨.reservedBits, .inr ⟨rfl, hbits⟩⟩
  obtain ⟨r, hr⟩ := hd
  exact step_of_decodeCommand_error rest hf hr

/-! ## Fault entry -/

/-- Settles O41: a step that sets FAULT is fault entry, because a performed operation keeps FAULT. -/
theorem faultEntryWritesNothingElse : Obligations.FaultEntryWritesNothingElse := by
  intro s t hf hstep ht
  obtain ⟨rest, ⟨hf', -⟩ | ⟨-, c, rfl⟩ | ⟨hf', i, -, rfl⟩⟩ := step_next_cases hstep
  · exact absurd (hf.symm.trans hf') (by decide)
  · exact ⟨rfl, c.code_range⟩
  · obtain ⟨-, -, hfault, -⟩ := performed_frame i { s with cmds := rest }
    exact absurd ((hfault.trans hf').symm.trans ht) (by decide)

end Sys2Proof.Machine
end

