-- ==== Sys2Proof/Proofs/CheckOrder.lean ====
section
/-! PROOF. The order of checks read off the raw bits agrees with the decoder and the command's own checks
(60_exceptions.md R239). -/

namespace Sys2Proof.Machine

/-! ## The fields of a raw word -/

/-- The bits of a word under a mask of `v` bits in its middle. -/
theorem and_middleMask_eq_zero_iff {u v n : Nat} {w : BitVec (u + v + n)} :
    w &&& (0#u ++ BitVec.allOnes v ++ 0#n) = 0 ↔ w.extractLsb' n v = 0 := by
  have hw : w.extractLsb' (n + v) u ++ w.extractLsb' n v ++ w.extractLsb' 0 n = w := by
    rw [BitVec.extractLsb'_append_extractLsb'_eq_extractLsb' rfl,
      BitVec.extractLsb'_append_extractLsb']
  conv_lhs => rw [← hw]
  rw [BitVec.and_append, BitVec.and_append,
    show (0 : BitVec (u + v + n)) = 0#u ++ 0#v ++ 0#n by simp, bitVec_append_inj,
    bitVec_append_inj]
  simp

theorem predictMask_eq_zero_iff {w : Word} :
    w &&& 0x0FFFFFFF00000000 = 0 ↔ predictReserved w = 0 :=
  and_middleMask_eq_zero_iff (u := 4) (v := 28) (n := 32)

theorem trainMask_eq_zero_iff {w : Word} :
    w &&& 0x0FFFFFFE00000000 = 0 ↔ trainReserved w = 0 :=
  and_middleMask_eq_zero_iff (u := 4) (v := 27) (n := 33)

theorem toNat_shift_opField (w : Word) : (w >>> 60).toNat = (opField w).toNat := by
  rw [BitVec.toNat_ushiftRight, Nat.shiftRight_eq_div_pow, opField_eq_iff.1 rfl]

theorem toNat_shift_stratField (w : Word) :
    ((w >>> 56) &&& 0xF).toNat = (stratField w).toNat := by
  rw [BitVec.toNat_and, BitVec.toNat_ushiftRight, stratField, BitVec.extractLsb'_toNat]
  exact Nat.and_two_pow_sub_one_eq_mod _ 4

/-! ## The fault of a command -/

/-- The fault a command raises in a block that is not faulted (60_exceptions.md R239). -/
def commandFault (s : State) : Command → Option Cause
  | .configure t f =>
    if s.configured then some .reconfigure
    else
      match Strategy.ofTag t with
      | none => some .cfgBadStrategy
      | some m => if sizesLegal s.build m f then none else some .cfgBadSize
  | .predict _ => if s.configured then none else some .notConfigured
  | .train pc _ =>
    if s.configured then
      if s.strategy = .custom ∧ paired pc s = false then some .trainUnpaired else none
    else some .notConfigured

/-- The fault a word raises in a block that is not faulted, by way of the decoder. -/
def wordFault (s : State) (w : Word) : Option Cause :=
  match decodeCommand w with
  | .error _ => some .illegalCommand
  | .ok c => commandFault s c

/-! ## The raw bits and the decoder find the same fault -/

section
variable (s : State) {w : Word}

theorem firstFault_of_opConfigure (hop : opField w = 1) :
    firstFault s w = commandFault s (.configure (stratField w) (sizeFields w)) := by
  have h1 : (w >>> 60).toNat = 1 := by rw [toNat_shift_opField, hop]; rfl
  simp only [firstFault, commandFault, toNat_shift_stratField, h1, if_true]
  refine if_congr Iff.rfl rfl ?_
  cases ht : Strategy.ofTag (stratField w) with
  | none => exact if_pos (ofTag_eq_none_iff.1 ht)
  | some m =>
    rw [← ofTag_eq_some_iff.1 ht]
    cases m <;> rfl

theorem firstFault_of_opPredict (hop : opField w = 2) :
    firstFault s w =
      if predictReserved w = 0 then commandFault s (.predict (pcField w))
      else some .illegalCommand := by
  have h2 : (w >>> 60).toNat = 2 := by rw [toNat_shift_opField, hop]; rfl
  simp only [firstFault, commandFault, h2, ne_eq, ite_not, predictMask_eq_zero_iff]
  rfl

theorem firstFault_of_opTrain (hop : opField w = 3) :
    firstFault s w =
      if trainReserved w = 0 then commandFault s (.train (pcField w) (outcomeField w))
      else some .illegalCommand := by
  have h3 : (w >>> 60).toNat = 3 := by rw [toNat_shift_opField, hop]; rfl
  have hpc : w.setWidth 32 = pcField w := BitVec.setWidth_eq_extractLsb' (by decide)
  simp only [firstFault, commandFault, h3, ne_eq, ite_not, trainMask_eq_zero_iff, hpc,
    ← paired_iff, Bool.not_eq_true, Bool.not_eq_true']
  cases s.configured <;> rfl

theorem firstFault_of_opReserved (h1 : opField w ≠ 1) (h2 : opField w ≠ 2) (h3 : opField w ≠ 3) :
    firstFault s w = some .illegalCommand := by
  have hop (n : BitVec 4) (hn : opField w ≠ n) : (w >>> 60).toNat ≠ n.toNat := by
    rw [toNat_shift_opField]
    exact fun h => hn (BitVec.eq_of_toNat_eq h)
  exact (if_neg (hop 1 h1)).trans ((if_neg (hop 2 h2)).trans (if_neg (hop 3 h3)))

theorem firstFault_eq_wordFault : firstFault s w = wordFault s w := by
  unfold wordFault decodeCommand
  split_ifs with h1 h2 hres h3 hres
  · exact firstFault_of_opConfigure s h1
  · exact (firstFault_of_opPredict s h2).trans (if_pos hres)
  · exact (firstFault_of_opPredict s h2).trans (if_neg hres)
  · exact (firstFault_of_opTrain s h3).trans (if_pos hres)
  · exact (firstFault_of_opTrain s h3).trans (if_neg hres)
  · exact firstFault_of_opReserved s h1 h2 h3

end

/-! ## What a fault and its absence lead to -/

section
variable {s : State}

theorem commandState_of_fault {c : Command} {k : Cause} (hk : commandFault s c = some k) :
    commandState s c = raise k s := by
  cases c with
  | configure t f =>
    simp only [commandFault, commandState] at hk ⊢
    split_ifs at hk ⊢ with hc
    · cases hk; rfl
    · cases ht : Strategy.ofTag t with
      | none => rw [ht] at hk; cases hk; rfl
      | some m =>
        simp only [ht] at hk ⊢
        split_ifs at hk ⊢ with hl
        cases hk; rfl
  | predict pc =>
    simp only [commandFault, commandState] at hk ⊢
    split_ifs at hk ⊢ with hc
    cases hk; rfl
  | train pc o =>
    simp only [commandFault, commandState] at hk ⊢
    split_ifs at hk ⊢ with hc hpair
    all_goals cases hk; rfl

/-- A command with no fault selects an operation that passes every check. -/
theorem performable_of_no_fault {c : Command} (hk : commandFault s c = none) :
    ∃ i, selectVariant s.strategy c = .ok i ∧ Performable i s := by
  cases c with
  | configure t f =>
    simp only [commandFault, selectVariant] at hk ⊢
    split_ifs at hk with hc
    cases ht : Strategy.ofTag t with
    | none => rw [ht] at hk; cases hk
    | some m =>
      simp only [ht] at hk ⊢
      split_ifs at hk with hl
      exact ⟨_, rfl, performable_configureVariant.2 ⟨eq_false_of_ne_true hc, hl⟩⟩
  | predict pc =>
    simp only [commandFault] at hk
    split_ifs at hk with hc
    exact ⟨_, rfl, performable_predictVariant.2 ⟨hc, rfl⟩⟩
  | train pc o =>
    simp only [commandFault] at hk
    split_ifs at hk with hc hpair
    refine ⟨_, rfl, performable_trainVariant.2 ⟨hc, rfl, fun hm => ?_⟩⟩
    exact eq_true_of_ne_false fun hp => hpair ⟨hm, hp⟩

theorem wordState_of_fault {w : Word} {k : Cause} (hf : s.fault = false)
    (hk : wordFault s w = some k) : wordState w s = raise k s := by
  unfold wordFault at hk
  cases hd : decodeCommand w with
  | error r =>
    rw [hd] at hk
    cases hk
    exact wordState_illegal hf hd
  | ok c =>
    rw [hd] at hk
    rw [wordState_command hf hd, commandState_of_fault hk]

theorem decode_of_no_fault {w : Word} (hk : wordFault s w = none) :
    ∃ i, decode s.strategy w = .ok i ∧ Performable i s := by
  unfold wordFault at hk
  unfold decode
  cases hd : decodeCommand w with
  | error r => rw [hd] at hk; cases hk
  | ok c => rw [hd] at hk; exact performable_of_no_fault hk

end

/-- Settles O40: both readings of the word find the same fault, and a word with none is performed. -/
theorem commandRaisesTheFirstFaultThatApplies :
    Obligations.CommandRaisesTheFirstFaultThatApplies := by
  intro s w rest hw
  refine ⟨fun hf => ?faulted, fun hf k hk => ?raised, fun hf hk => ?performed⟩
  case faulted => exact (step_eq_wordState hw).trans (congrArg _ (wordState_faulted w hf))
  case raised =>
    rw [firstFault_eq_wordFault] at hk
    have hk' : wordFault (withCmds rest s) w = some k := hk
    exact (step_eq_wordState hw).trans (congrArg _ (wordState_of_fault hf hk'))
  case performed =>
    rw [firstFault_eq_wordFault] at hk
    have hk' : wordFault (withCmds rest s) w = none := hk
    obtain ⟨i, hd, hp⟩ := decode_of_no_fault hk'
    have he := exec_of_performable (s := withCmds rest s) hf hp
    obtain ⟨-, -, hfault, hcause, hstatus⟩ := performed_frame i (withCmds rest s)
    exact ⟨i, _, hd, he, (stepRunsTheDecodedOperation s w rest i hw hd).trans he,
      hfault.trans hf, hcause, hstatus⟩

end Sys2Proof.Machine
end

