-- ==== Sys2Proof/Proofs/Lifecycle.lean ====
section
/-! PROOF. UNCONFIGURED, RUNNING and FAULTED along steps and runs, and the driver that never leaves
RUNNING (60_exceptions.md R241 to R249). -/

namespace Sys2Proof.Machine

open Sys2Proof.Claims

/-! ## A faulted block -/

/-- A faulted block runs no operation (60_exceptions.md R242). -/
theorem exec_faulted {s : State} (i : Instr) (hf : s.fault = true) :
    exec i s = .next (answerFaulted s) := by
  rcases exec_cases i s with ⟨-, h⟩ | ⟨hf', -⟩ | ⟨hf', -⟩ | ⟨hf', -⟩
  · exact h
  all_goals exact absurd (hf'.symm.trans hf) (by decide)

/-- Settles O42: whatever the operation or the word, the block answers as faulted. -/
theorem faultedBlockOnlyAnswersItsCause : Obligations.FaultedBlockOnlyAnswersItsCause :=
  fun s hf => ⟨fun i => exec_faulted i hf, fun w rest =>
    (step_withCmds s w rest).trans (congrArg _ (wordState_faulted (s := withCmds rest s) w hf))⟩

/-- A step of a faulted block takes the word and answers the cause (60_exceptions.md R242). -/
theorem step_next_faulted {s t : State} (hf : s.fault = true) (h : step s = .next t) :
    ∃ w rest, s.cmds = w :: rest ∧ t = answerFaulted (withCmds rest s) := by
  obtain ⟨w, rest, hw, rfl⟩ := step_next h
  exact ⟨w, rest, hw, wordState_faulted w hf⟩

/-- A run of a faulted block takes its words and answers the cause (60_exceptions.md R241). -/
theorem runSteps_faulted {k : Nat} {s t : State} (hf : s.fault = true)
    (h : runSteps (k + 1) s = .next t) :
    t = answerFaulted (withCmds (s.cmds.drop (k + 1)) s) := by
  induction k generalizing s with
  | zero =>
    obtain ⟨u, hu, ht⟩ := runSteps_succ_next h
    obtain ⟨w, rest, hw, rfl⟩ := step_next_faulted hf hu
    cases ht
    rw [hw]; rfl
  | succ k ih =>
    obtain ⟨u, hu, ht⟩ := runSteps_succ_next h
    obtain ⟨w, rest, hw, rfl⟩ := step_next_faulted hf hu
    rw [hw]
    exact ih (s := answerFaulted (withCmds rest s)) hf ht

/-- Settles O43: no step is the empty run; from the first step on, the block answers its cause. -/
theorem faultIsAbsorbingAlongRuns : Obligations.FaultIsAbsorbingAlongRuns := by
  intro k s t hf h
  cases k with
  | zero => cases h; exact ⟨rfl, nofun⟩
  | succ k => rw [runSteps_faulted hf h]; exact ⟨rfl, fun _ => ⟨rfl, rfl⟩⟩

/-! ## The conditions -/

theorem condition_eq_faulted_iff {s : State} : s.condition = .faulted ↔ s.fault = true := by
  unfold State.condition
  split_ifs <;> simp_all

theorem condition_eq_running_iff {s : State} :
    s.condition = .running ↔ s.fault = false ∧ s.configured = true := by
  unfold State.condition
  split_ifs <;> simp_all

/-- One step leaves a block running, or faulted; a faulted one stays faulted (60_exceptions.md R243). -/
theorem condition_step {s t : State} (h : step s = .next t) :
    t.condition = .faulted ∨ (s.fault = false ∧ t.condition = .running) := by
  obtain ⟨rest, ⟨hf, rfl⟩ | ⟨-, c, rfl⟩ | ⟨hf, i, hp, rfl⟩⟩ := step_next_cases h
  · exact .inl (condition_eq_faulted_iff.2 hf)
  · exact .inl (condition_eq_faulted_iff.2 rfl)
  · obtain ⟨-, -, hfault, -⟩ := performed_frame i { s with cmds := rest }
    exact .inr ⟨hf, condition_eq_running_iff.2 ⟨hfault.trans hf, performed_configured hp⟩⟩

/-- Settles O44: only a block with FAULT = 0 is left running. -/
theorem lifecycleMovesForwardOnly : Obligations.LifecycleMovesForwardOnly := by
  intro s t h
  have ht := condition_step h
  cases hs : s.condition with
  | unconfigured | running => exact ht.symm.imp And.right id
  | faulted =>
    have hf := condition_eq_faulted_iff.1 hs
    exact ht.resolve_right fun ⟨hf', _⟩ => absurd (hf'.symm.trans hf) (by decide)

/-! ## The driver's protocol -/

theorem foldl_branchState_fault (bs : List (Pc × Bool)) (s : State) :
    (bs.foldl branchState s).fault = s.fault := by
  induction bs generalizing s with
  | nil => rfl
  | cons b bs ih => exact (ih (branchState s b)).trans (branchState_frame s b).2

/-- Settles O50: the run over the branches, each of which keeps FAULT. -/
theorem driverProtocolNeverFaults : Obligations.DriverProtocolNeverFaults := by
  intro bs s rest hf hc hw
  exact ⟨_, runSteps_branches bs hf hc hw, (foldl_branchState_fault bs s).trans hf, rfl⟩

end Sys2Proof.Machine
end

