-- ==== Sys2Proof/Proofs/PowerOn.lean ====
section
/-! PROOF. Power-on is the only event that clears CONFIGURED and FAULT
(70_reset_and_hazards.md R260). -/

namespace Sys2Proof.Machine

open Sys2Proof.Claims

theorem unconfigured_powerOn (s : State) : Unconfigured (powerOn s) := ⟨rfl, rfl⟩

theorem unconfigured_reset : Unconfigured State.reset := ⟨rfl, rfl⟩

/-- No operation clears CONFIGURED: the one that writes it, a performed CONFIGURE, sets it. -/
theorem exec_keeps_configured {i : Instr} {s t : State} (h : exec i s = .next t)
    (hc : s.configured = true) : t.configured = true := by
  obtain ⟨-, ⟨hsame, -, -⟩ | ⟨-, -, -, hset⟩⟩ := onlyConfigureWritesControlRegisters i s t h
  · exact hsame.trans hc
  · exact hset

/-- No operation clears FAULT: a faulted block only answers its cause (60_exceptions.md R242). -/
theorem exec_keeps_fault {i : Instr} {s t : State} (h : exec i s = .next t)
    (hf : s.fault = true) : t.fault = true := by
  cases (exec_faulted i hf).symm.trans h
  exact hf

theorem step_keeps_configured {s t : State} (h : step s = .next t) (hc : s.configured = true) :
    t.configured = true :=
  (step_configuration hc h).1

theorem step_keeps_fault {s t : State} (h : step s = .next t) (hf : s.fault = true) :
    t.fault = true := by
  obtain ⟨w, rest, -, rfl⟩ := step_next_faulted hf h
  exact hf

/-- Settles O45: power-on clears the registers; every operation and every step keeps a CONFIGURED or
FAULT that is 1. -/
theorem powerOnAloneClearsConfiguredAndFault : Obligations.PowerOnAloneClearsConfiguredAndFault :=
  ⟨fun s => ⟨unconfigured_powerOn s, rfl⟩,
    ⟨unconfigured_reset, rfl⟩,
    fun _ _ _ h => ⟨exec_keeps_configured h, exec_keeps_fault h⟩,
    fun _ _ h => ⟨step_keeps_configured h, step_keeps_fault h⟩⟩

end Sys2Proof.Machine
end
